-- ==== Sys2Proof/Word.lean ====
section
/-! DEFINITION. The byte, the hardware's only word (spec/00_scope.md R5, R6), and the one narrowing operation. -/

namespace Sys2Proof

/-- XLEN = 8: a register, a memory cell, an opcode and an operand are each one unsigned byte (R5, R6). -/
abbrev Byte := BitVec 8

/-- `trunc8(v) = v mod 256`, the mathematical modulus, so `trunc8(-1) = 255` (R6). -/
def trunc8 (v : Int) : Byte := BitVec.ofInt 8 v

end Sys2Proof
end

