-- ==== Sys2Proof/Config.lean ====
section
/-! DEFINITION. The parameters of spec/00_scope.md R5. All but the OPC_ group have one value; the nine OPC_ values are open
(spec/92_eei_decisions.md D3) and are a structure, so that claims can be stated for every admissible choice. -/

namespace Sys2Proof.Config

/-- MEMSIZE: addresses 0 to 255 (R5). -/
abbrev memSize : Nat := 256

/-- NREG: registers 0 to 7 (R5). -/
abbrev numRegs : Nat := 8

/-- SP_INDEX: the register the stack instructions use (R5, spec/10_state.md R11). -/
abbrev spIndex : Fin 8 := 7

/-- SP_RESET = 0xF4 = 244 (R5, spec/10_state.md R24; spec/90_conflicts.md C1 rules the gloss "228" out). -/
def spReset : Byte := 0xF4

/-- PC_RESET, the entry point (R5, spec/10_state.md R25). -/
def pcReset : Nat := 0

/-- LOAD_BASE, where the loader puts the first image byte (R5, spec/70_reset_and_hazards.md R171). -/
def loadBase : Nat := 0

/-- The nine opcode values the source does not give (spec/30_encoding.md R57, D3). What the decoder of this model uses for
them by default is `defaultOpcodes` of Sys2Proof/Decode.lean. -/
structure Opcodes where
  mul  : Byte
  push : Byte
  pop  : Byte
  call : Byte
  ret  : Byte
  cmp  : Byte
  jmp  : Byte
  jeq  : Byte
  jne  : Byte
  deriving DecidableEq, Repr

end Sys2Proof.Config
end

