-- ==== Sys2Proof/Syntax.lean ====
section
/-! DEFINITION. The thirteen instructions (spec/00_scope.md R1), one constructor a row of spec/opcode_table.json, in its order.
An operand is the raw operand byte: a register index is the whole byte and is checked, not masked (spec/30_encoding.md R54). -/

namespace Sys2Proof

inductive Instr where
  /-- LDI r, imm: format F2RI (R53, R90). -/
  | ldi (r imm : Byte)
  /-- PRN r: format F1R (R52, R91). -/
  | prn (r : Byte)
  /-- HLT: format F0 (R51, R92). -/
  | hlt
  /-- MUL ra, rb: format F2RR (R53, R102). -/
  | mul (ra rb : Byte)
  /-- ADD ra, rb: format F2RR (R53, R101). -/
  | add (ra rb : Byte)
  /-- PUSH r: format F1R (R52, R111). -/
  | push (r : Byte)
  /-- POP r: format F1R (R52, R112). -/
  | pop (r : Byte)
  /-- CALL r: format F1R (R52, R121). -/
  | call (r : Byte)
  /-- RET: format F0P, one byte; the byte it peeks does not belong to it (R60, R122), so it is no operand here and the
  meaning reads it from memory. -/
  | ret
  /-- CMP ra, rb: format F2RR (R53, R103). -/
  | cmp (ra rb : Byte)
  /-- JMP r: format F1R (R52, R123). -/
  | jmp (r : Byte)
  /-- JEQ r: format F1R (R52, R124). -/
  | jeq (r : Byte)
  /-- JNE r: format F1R (R52, R125). -/
  | jne (r : Byte)
  deriving DecidableEq, Repr

end Sys2Proof
end

