-- ==== Sys2Proof/WellFormed.lean ====
section
/-! DEFINITION. When an instruction's fields are legal: "Within a legal instruction the only illegal field values are
register-index bytes above 7" (spec/30_encoding.md R58, R54). -/

namespace Sys2Proof

/-- A register-index byte is legal when it is 0 to 7 (R54). -/
def regByteOk (b : Byte) : Bool := decide (b.toNat < Config.numRegs)

/-- Every register-index byte of the instruction is legal; every immediate is (R55, R58). -/
def Instr.wf : Instr → Bool
  | .ldi r _   => regByteOk r
  | .prn r     => regByteOk r
  | .hlt       => true
  | .mul ra rb => regByteOk ra && regByteOk rb
  | .add ra rb => regByteOk ra && regByteOk rb
  | .push r    => regByteOk r
  | .pop r     => regByteOk r
  | .call r    => regByteOk r
  | .ret       => true
  | .cmp ra rb => regByteOk ra && regByteOk rb
  | .jmp r     => regByteOk r
  | .jeq r     => regByteOk r
  | .jne r     => regByteOk r

end Sys2Proof
end

