-- ==== Sys2Proof/Decode.lean ====
section
/-! DEFINITION. The opcode map, the decoder (total on any bytes, rejecting by name) and the encoder
(spec/30_encoding.md R50 to R60, spec/40_fetch_decode_execute.md R70 to R74). The opcode values are a parameter `c`;
`decode` and `encode` take the spec's defaults (log entry 1). -/

namespace Sys2Proof

/-- The closed enumeration of instruction kinds the decoder yields (R73), in the order of the table of R57. -/
inductive OpKind where
  | ldi | prn | hlt | mul | add | push | pop | call | ret | cmp | jmp | jeq | jne
  deriving DecidableEq, Repr

/-- The five formats (R50 to R53, R60). -/
inductive Format where
  | f0 | f1r | f2rr | f2ri | f0p
  deriving DecidableEq, Repr

/-- Why the decoder yields no instruction. -/
inductive Reject where
  /-- There is no byte at the first address: the fetch itself fails (R71). -/
  | noOpcode
  /-- The opcode byte is none of the thirteen (R58, R73). -/
  | unknownOpcode (op : Byte)
  /-- The `k`-th byte after the opcode lies outside memory (R74). -/
  | missingOperand (k : Nat)
  deriving DecidableEq, Repr

/-- All kinds, in the order of R57. -/
def opKinds : List OpKind := [.ldi, .prn, .hlt, .mul, .add, .push, .pop, .call, .ret, .cmp, .jmp, .jeq, .jne]

/-- The opcode byte of each kind: LDI, PRN, HLT and ADD are normative (R56), the others the parameters OPC_ (R57). -/
def opcodeOf (c : Config.Opcodes) : OpKind → Byte
  | .ldi  => 0x82
  | .prn  => 0x47
  | .hlt  => 0x01
  | .mul  => c.mul
  | .add  => 0xA0
  | .push => c.push
  | .pop  => c.pop
  | .call => c.call
  | .ret  => c.ret
  | .cmp  => c.cmp
  | .jmp  => c.jmp
  | .jeq  => c.jeq
  | .jne  => c.jne

/-- The defaults of the nine OPC_ parameters (R57). PRESUMED (log entry 1), unsafe: the spec takes them from general knowledge (G1). -/
def defaultOpcodes : Config.Opcodes where
  mul  := 0xA2
  push := 0x45
  pop  := 0x46
  call := 0x50
  ret  := 0x11
  cmp  := 0xA7
  jmp  := 0x54
  jeq  := 0x55
  jne  := 0x56

/-- "the constraint that the thirteen opcode values are pairwise distinct" (R57). -/
abbrev admissible (c : Config.Opcodes) : Prop := (opKinds.map (opcodeOf c)).Nodup

/-- The format column of R57. -/
def formatOf : OpKind → Format
  | .ldi => .f2ri
  | .prn | .push | .pop | .call | .jmp | .jeq | .jne => .f1r
  | .hlt => .f0
  | .mul | .add | .cmp => .f2rr
  | .ret => .f0p

/-- The bytes that belong to an instruction of the format (R50 to R53, R60). -/
def formatLength : Format → Nat
  | .f0   => 1
  | .f1r  => 2
  | .f2rr => 3
  | .f2ri => 3
  | .f0p  => 1

/-- The bytes read from `pc0` upward before the instruction executes: its own bytes, and for F0P the peeked one
(R60, R74). -/
def formatReads : Format → Nat
  | .f0   => 1
  | .f1r  => 2
  | .f2rr => 3
  | .f2ri => 3
  | .f0p  => 2

/-- `lookup(op)`: the kind whose opcode value equals the whole byte, or none (R72). -/
def lookup (c : Config.Opcodes) (op : Byte) : Option OpKind :=
  opKinds.find? (fun k => opcodeOf c k == op)

/-- The one operand byte of format F1R (R52, R74). -/
def takeOne (f : Byte → Instr) : List Byte → Except Reject (Instr × List Byte)
  | []         => .error (.missingOperand 1)
  | b1 :: rest => .ok (f b1, rest)

/-- The two operand bytes of formats F2RR and F2RI, read in ascending order (R53, R74). -/
def takeTwo (f : Byte → Byte → Instr) : List Byte → Except Reject (Instr × List Byte)
  | []               => .error (.missingOperand 1)
  | [_]              => .error (.missingOperand 2)
  | b1 :: b2 :: rest => .ok (f b1 b2, rest)

/-- Phase 3 of R70: the operand bytes an instruction of the kind owns, from the bytes after its opcode. -/
def takeOperands (k : OpKind) (bytes : List Byte) : Except Reject (Instr × List Byte) :=
  match k with
  | .ldi  => takeTwo .ldi bytes
  | .prn  => takeOne .prn bytes
  | .hlt  => .ok (.hlt, bytes)
  | .mul  => takeTwo .mul bytes
  | .add  => takeTwo .add bytes
  | .push => takeOne .push bytes
  | .pop  => takeOne .pop bytes
  | .call => takeOne .call bytes
  | .ret  => .ok (.ret, bytes)
  | .cmp  => takeTwo .cmp bytes
  | .jmp  => takeOne .jmp bytes
  | .jeq  => takeOne .jeq bytes
  | .jne  => takeOne .jne bytes

/-- Phases 1 to 3 of R70 on the bytes that exist from `pc0` upward: the instruction and the bytes after it, or the reason
there is none, the earliest phase first (spec/60_exceptions.md R148). -/
def decodeWith (c : Config.Opcodes) : List Byte → Except Reject (Instr × List Byte)
  | []         => .error .noOpcode
  | op :: rest =>
    match lookup c op with
    | none   => .error (.unknownOpcode op)
    | some k => takeOperands k rest

/-- The decoder with the default opcode values. -/
def decode (bytes : List Byte) : Except Reject (Instr × List Byte) := decodeWith defaultOpcodes bytes

/-- The kind of an instruction. -/
def kindOf : Instr → OpKind
  | .ldi _ _ => .ldi
  | .prn _   => .prn
  | .hlt     => .hlt
  | .mul _ _ => .mul
  | .add _ _ => .add
  | .push _  => .push
  | .pop _   => .pop
  | .call _  => .call
  | .ret     => .ret
  | .cmp _ _ => .cmp
  | .jmp _   => .jmp
  | .jeq _   => .jeq
  | .jne _   => .jne

/-- The operand bytes an instruction owns, first operand first (R34, R50). -/
def operandBytes : Instr → List Byte
  | .ldi r imm => [r, imm]
  | .prn r     => [r]
  | .hlt       => []
  | .mul ra rb => [ra, rb]
  | .add ra rb => [ra, rb]
  | .push r    => [r]
  | .pop r     => [r]
  | .call r    => [r]
  | .ret       => []
  | .cmp ra rb => [ra, rb]
  | .jmp r     => [r]
  | .jeq r     => [r]
  | .jne r     => [r]

/-- The bytes of an instruction: opcode, then operands, at ascending addresses (R34, R50). -/
def encodeWith (c : Config.Opcodes) (i : Instr) : List Byte := opcodeOf c (kindOf i) :: operandBytes i

/-- The encoder with the default opcode values. -/
def encode (i : Instr) : List Byte := encodeWith defaultOpcodes i

/-- The three bytes, lowest address first, of an instruction of `nbits` bits numbered as spec/opcode_table.json numbers them
(byte k is bits 8k+7..8k), every bit from `nbits` up being 0. Three is the longest instruction (R50). -/
def tableBytes (nbits w : Nat) : List Byte :=
  let v := w % 2 ^ nbits
  [BitVec.ofNat 8 v, BitVec.ofNat 8 (v / 256), BitVec.ofNat 8 (v / 65536)]

/-- The instruction the decoder reads from a word of the opcode table. -/
def decodeTableWord (nbits w : Nat) : Option Instr :=
  match decode (tableBytes nbits w) with
  | .ok (i, _) => some i
  | .error _   => none

end Sys2Proof
end

