-- ==== Sys2Proof/Machine/State.lean ====
section
/-! DEFINITION. Everything the spec gives the machine (spec/10_state.md, its opening tuple and R10 to R27), as plain data; the
reasons a step can stop; the state after reset. -/

namespace Sys2Proof.Machine

/-- A register index, 0 to 7 (R10). -/
abbrev RegIndex := Fin 8

/-- The memory (spec/20_memory.md R30): the cells that differ from what an unlisted address reads as. Its canonical form is
`Memory.wf` of Machine/Ops.lean. -/
abbrev Memory := List Host.Cell

/-- The run status (R19). -/
inductive Status where
  | running
  /-- Stopped by HLT. -/
  | halted
  /-- Stopped by a fault of the hardware. -/
  | faulted
  deriving DecidableEq, Repr

/-- The four causes of spec/60_exceptions.md R140. -/
inductive FaultKind where
  /-- R141. -/
  | unknownOpcode
  /-- R142. -/
  | addressFault
  /-- R143. -/
  | registerIndexFault
  /-- R144: raised by the ALU on a kind no instruction presents. -/
  | unsupportedAluOp
  deriving DecidableEq, Repr

/-- What is raised (R8 `raise K(info)`): the kind and, where the cause has one, the offending value. -/
structure Cause where
  kind : FaultKind
  info : Option Nat
  deriving DecidableEq, Repr

/-- The fault record (R20). -/
structure FaultRecord where
  kind   : FaultKind
  /-- The byte fetched at `pc0`, none when the fetch itself faulted. -/
  opcode : Option Byte
  /-- `pc0`. -/
  pc     : Nat
  /-- The offending address or byte, none where the cause has none. -/
  info   : Option Nat
  deriving DecidableEq, Repr

/-- The whole state of the hardware. -/
structure State where
  /-- `x[0]` to `x[7]` (R10); `x[7]` is SP (R11). -/
  regs   : Vector Byte 8
  /-- The program counter, a natural number 0 to 256 (R14); the bound is `StateInv`. -/
  pc     : Nat
  /-- The single condition bit (R17), true for 1. -/
  flag   : Bool
  /-- R19. -/
  status : Status
  /-- R20. -/
  fault  : Option FaultRecord
  /-- R30. -/
  mem    : Memory
  /-- The values PRN has emitted, oldest first (R21). -/
  out    : List Byte
  deriving DecidableEq, Repr

/-- Why there is no next state. The hardware's own faults are NOT here: their entry is described by the spec, so they are next
states with status FAULTED (log entry 2). -/
inductive Fault where
  /-- Raised by `stepWith` on a HALTED state, which has no step (spec/40_fetch_decode_execute.md R79). Safe. -/
  | haltedHasNoStep
  /-- Raised by `stepWith` on a FAULTED state, which has no step (R79). Safe. -/
  | faultedHasNoStep
  deriving DecidableEq, Repr

/-- Why the model gives no meaning. -/
inductive Refusal where
  /-- Raised by an arm of `exec` for an instruction without a meaning; no arm does. Safe. -/
  | notModelled (mnemonic : String)
  /-- Raised by `launch` for an image of more than 256 bytes, which has no launch state (spec/70_reset_and_hazards.md R172).
  Safe. -/
  | imageTooLong
  deriving DecidableEq, Repr

/-- The state after reset (R23 to R27). -/
def State.reset : State where
  regs   := #v[0, 0, 0, 0, 0, 0, 0, Config.spReset]
  pc     := Config.pcReset
  flag   := false
  status := .running
  fault  := none
  mem    := []
  out    := []

end Sys2Proof.Machine
end

