-- ==== Sys2Proof/Machine/Ops.lean ====
section
/-! DEFINITION. The named operations over memory, registers, stack, pc and output (spec/00_scope.md R7, R8), and entering a
fault as one shared operation (spec/60_exceptions.md R146). There is no return from a fault (R150). -/

namespace Sys2Proof.Machine

/-! ## The memory as data -/

/-- What an address that is not listed reads as: 0, the reset contents (spec/10_state.md R26). -/
def Memory.unlisted : Byte := 0

/-- The byte at an address. -/
def Memory.byteAt : Memory → Nat → Byte
  | [], _          => Memory.unlisted
  | (b, v) :: m, a => if b = a then v else Memory.byteAt m a

/-- Put a cell in its place in a rising list that does not hold its address. -/
def Memory.insertCell (a : Nat) (v : Byte) : Memory → Memory
  | []          => [(a, v)]
  | (b, w) :: m => if a < b then (a, v) :: (b, w) :: m else (b, w) :: Memory.insertCell a v m

/-- Store a byte, keeping the canonical form: a byte equal to what an unlisted address reads as is not listed. -/
def Memory.setByte (m : Memory) (a : Nat) (v : Byte) : Memory :=
  if v = Memory.unlisted then m.filter (fun c => c.1 != a)
  else Memory.insertCell a v (m.filter (fun c => c.1 != a))

/-- The canonical form: addresses strictly rising and inside memory, no cell equal to what an unlisted address reads as. -/
abbrev Memory.wf (m : Memory) : Prop :=
  m.Pairwise (fun c d => c.1 < d.1) ∧ ∀ c ∈ m, c.1 < Config.memSize ∧ c.2 ≠ Memory.unlisted

/-- Store bytes at ascending addresses from `a`; addresses outside memory do not exist and take nothing. -/
def Memory.placeBytes (m : Memory) (a : Nat) : List Byte → Memory
  | []      => m
  | b :: bs => Memory.placeBytes (if a < Config.memSize then m.setByte a b else m) (a + 1) bs

/-! ## Registers, pc, output -/

/-- The stack pointer's index (spec/10_state.md R11). -/
abbrev sp : RegIndex := Config.spIndex

/-- `x[i]` (R7). -/
def State.reg (s : State) (i : RegIndex) : Byte := s.regs[i.val]

/-- `x[i] <- v` writes `trunc8(v)` (R7, spec/10_state.md R13). No register is special (R10, R11). -/
def State.setReg (s : State) (i : RegIndex) (v : Int) : State :=
  { s with regs := s.regs.set i.val (trunc8 v) i.isLt }

/-- `pc <- t`: a natural number, no wrap (R14, spec/40_fetch_decode_execute.md R76). -/
def State.setPc (s : State) (t : Nat) : State := { s with pc := t }

/-- `flag <- b`. -/
def State.setFlag (s : State) (b : Bool) : State := { s with flag := b }

/-- `status <- HALTED` (spec/41_load_print_halt.md R92). -/
def State.halt (s : State) : State := { s with status := .halted }

/-- `Emit(v)` appends to `out` (R8, spec/10_state.md R21). -/
def State.emit (s : State) (v : Byte) : State := { s with out := s.out ++ [v] }

/-! ## Memory accesses -/

/-- The byte a state's memory holds at an address, with no check: what claims about memory speak of. -/
def State.memAt (s : State) (a : Nat) : Byte := s.mem.byteAt a

/-- `Mem[a] <- v`, with no check. -/
def State.putByte (s : State) (a : Nat) (v : Byte) : State := { s with mem := s.mem.setByte a v }

/-- `MemRead(a, 1)` (R8, spec/20_memory.md R31). -/
def State.memRead (s : State) (a : Nat) : Except Cause Byte :=
  if a < Config.memSize then .ok (s.memAt a) else .error ⟨.addressFault, some a⟩

/-- `MemWrite(a, 1, v)` (R8, spec/20_memory.md R32). -/
def State.memWrite (s : State) (a : Nat) (v : Int) : Except Cause State :=
  if a < Config.memSize then .ok (s.putByte a (trunc8 v)) else .error ⟨.addressFault, some a⟩

/-! ## The stack (spec/43_stack.md R110) -/

/-- `x[7] <- trunc8(x[7] - 1)`. -/
def State.decSp (s : State) : State := s.setReg sp ((s.reg sp).toNat - 1)

/-- `x[7] <- trunc8(x[7] + 1)`. -/
def State.incSp (s : State) : State := s.setReg sp ((s.reg sp).toNat + 1)

/-- `MemRead(x[7], 1)`. -/
def State.readTop (s : State) : Except Cause Byte := s.memRead (s.reg sp).toNat

/-- `MemWrite(x[7], 1, v)`. -/
def State.writeTop (s : State) (v : Int) : Except Cause State := s.memWrite (s.reg sp).toNat v

/-! ## Faults -/

/-- The byte fetched at `pc`, none when there is none to fetch (spec/10_state.md R20). -/
def State.fetchedOpcode (s : State) : Option Byte :=
  match s.memRead s.pc with
  | .ok b    => some b
  | .error _ => none

/-- Fault entry (R146): status and record, and nothing else. `s` is the state the step began in. -/
def State.enterFault (s : State) (c : Cause) : State :=
  { s with status := .faulted, fault := some ⟨c.kind, s.fetchedOpcode, s.pc, c.info⟩ }

/-- A handler either completes or raises, and then "the instruction in progress is abandoned with no state change other than"
fault entry (R8): whatever it had changed is dropped. `s` is the state the step began in. -/
def State.finish (s : State) (r : Except Cause State) : Host.Outcome State Fault Refusal :=
  match r with
  | .ok t    => .next t
  | .error c => .next (s.enterFault c)

/-- The cause numbers, labels of the spec's own (spec/60_exceptions.md R140, spec/92_eei_decisions.md D8). -/
def faultCode : FaultKind → Nat
  | .unknownOpcode      => 1
  | .addressFault       => 2
  | .registerIndexFault => 3
  | .unsupportedAluOp   => 4

end Sys2Proof.Machine
end

