-- ==== Sys2Proof/Machine/Flags.lean ====
section
/-! DEFINITION. The one flag: how COMPARE sets it and how the branches test it (spec/10_state.md R17, R18). -/

namespace Sys2Proof.Machine

/-- The sticky rule: set when equal, otherwise kept; never written 0 (spec/42_alu.md R103). -/
def flagAfterCompare (old equal : Bool) : Bool := if equal then true else old

/-- JEQ branches when the flag is 1 (spec/44_control_transfer.md R124). -/
def jeqTaken (flag : Bool) : Bool := flag

/-- JNE branches when the flag is 0 (spec/44_control_transfer.md R125). -/
def jneTaken (flag : Bool) : Bool := !flag

end Sys2Proof.Machine
end

