-- ==== Sys2Proof/Machine/Operands.lean ====
section
/-! DEFINITION. The operand forms (spec/30_encoding.md R52 to R55, R60): a register index, two register indices with the first
checked first, and RET's peeked register index. The immediate is the byte as it stands and needs no form (R55). -/

namespace Sys2Proof.Machine

/-- `RegIdx(b)`: the whole byte, checked and never masked (R8, R54). -/
def regIdx (b : Byte) : Except Cause RegIndex :=
  if h : b.toNat < 8 then .ok ⟨b.toNat, h⟩ else .error ⟨.registerIndexFault, some b.toNat⟩

/-- The operands of format F2RR, "first operand before second" (R53, spec/60_exceptions.md R148). -/
def regIdx2 (b1 b2 : Byte) : Except Cause (RegIndex × RegIndex) := do
  let ra ← regIdx b1
  let rb ← regIdx b2
  return (ra, rb)

/-- RET's register index: the byte at `pc0 + 1`, peeked and then checked like an operand (R60). -/
def peekRegIdx (s : State) : Except Cause RegIndex := do
  let b1 ← s.memRead (s.pc + 1)
  regIdx b1

end Sys2Proof.Machine
end

