-- ==== Sys2Proof/Machine/Alu.lean ====
section
/-! DEFINITION. The ALU (spec/42_alu.md R100, R104, R105) and the instructions that use it: MUL, ADD, CMP. -/

namespace Sys2Proof.Machine

/-- The operation kind presented to the ALU. `other` stands for every kind the ALU does not accept (R105). -/
inductive AluKind where
  | add | multiply | compare
  | other (code : Nat)
  deriving DecidableEq, Repr

/-- What the ALU gives: an 8-bit result, or the one bit "equal" (R100). -/
inductive AluOut where
  | result (v : Byte)
  | equal (b : Bool)
  deriving DecidableEq, Repr

/-- "Pure functions over two register values" (R100): exact arithmetic, then the low 8 bits (R104). -/
def alu (k : AluKind) (a b : Byte) : Except Cause AluOut :=
  match k with
  | .add      => .ok (.result (trunc8 ((a.toNat : Int) + b.toNat)))
  | .multiply => .ok (.result (trunc8 ((a.toNat : Int) * b.toNat)))
  | .compare  => .ok (.equal (a == b))
  | .other _  => .error ⟨.unsupportedAluOp, none⟩

/-- A result is written back to `x[ra]`; "equal" can only set the flag (R100). -/
def State.applyAlu (s : State) (ra : RegIndex) : AluOut → State
  | .result v => s.setReg ra v.toNat
  | .equal b  => s.setFlag (flagAfterCompare s.flag b)

/-- What ADD, MUL and CMP share (R101 to R103): two register operands, the ALU, the write back, `pc <- pc0 + 3`. -/
def State.aluInstr (s : State) (k : AluKind) (b1 b2 : Byte) : Except Cause State := do
  let (ra, rb) ← regIdx2 b1 b2
  let o ← alu k (s.reg ra) (s.reg rb)
  return (s.applyAlu ra o).setPc (s.pc + 3)

/-- ADD ra, rb (R101). -/
def execAdd (ra rb : Byte) (s : State) : Host.Outcome State Fault Refusal := s.finish (s.aluInstr .add ra rb)

/-- MUL ra, rb (R102). -/
def execMul (ra rb : Byte) (s : State) : Host.Outcome State Fault Refusal := s.finish (s.aluInstr .multiply ra rb)

/-- CMP ra, rb (R103). -/
def execCmp (ra rb : Byte) (s : State) : Host.Outcome State Fault Refusal := s.finish (s.aluInstr .compare ra rb)

end Sys2Proof.Machine
end

