-- ==== Sys2Proof/Machine/Control.lean ====
section
/-! DEFINITION. CALL, RET, JMP, JEQ, JNE (spec/44_control_transfer.md R120 to R127). A target is the whole 8-bit value of a
register or of a stack byte (R120). -/

namespace Sys2Proof.Machine

/-- CALL r (R121): the return address is narrowed to a byte by the memory write; `x[r]` is read after the decrement. -/
def execCall (r : Byte) (s : State) : Host.Outcome State Fault Refusal :=
  s.finish do
    let i ← regIdx r
    let t ← s.decSp.writeTop (s.pc + 2)
    return t.setPc (t.reg i).toNat

/-- RET (R122): peeks the byte after its opcode and writes the return address into the register it names; the increment is
applied after that write. -/
def execRet (s : State) : Host.Outcome State Fault Refusal :=
  s.finish do
    let t ← peekRegIdx s
    let addr ← s.readTop
    return (s.setReg t addr.toNat).incSp.setPc addr.toNat

/-- JMP r (R123). -/
def execJmp (r : Byte) (s : State) : Host.Outcome State Fault Refusal :=
  s.finish do
    let i ← regIdx r
    return s.setPc (s.reg i).toNat

/-- What JEQ and JNE share: the operand is checked whether or not the branch is taken (R124, R125). -/
def State.branchIf (s : State) (taken : Bool) (r : Byte) : Except Cause State := do
  let i ← regIdx r
  return s.setPc (if taken then (s.reg i).toNat else s.pc + 2)

/-- JEQ r (R124). -/
def execJeq (r : Byte) (s : State) : Host.Outcome State Fault Refusal := s.finish (s.branchIf (jeqTaken s.flag) r)

/-- JNE r (R125). -/
def execJne (r : Byte) (s : State) : Host.Outcome State Fault Refusal := s.finish (s.branchIf (jneTaken s.flag) r)

end Sys2Proof.Machine
end

