-- ==== Sys2Proof/Machine/LoadPrintHalt.lean ====
section
/-! DEFINITION. LDI, PRN, HLT (spec/41_load_print_halt.md R90 to R92). -/

namespace Sys2Proof.Machine

/-- LDI r, imm (R90). -/
def execLdi (r imm : Byte) (s : State) : Host.Outcome State Fault Refusal :=
  s.finish do
    let i ← regIdx r
    return (s.setReg i imm.toNat).setPc (s.pc + 3)

/-- PRN r (R91): one value to the output channel. -/
def execPrn (r : Byte) (s : State) : Host.Outcome State Fault Refusal :=
  s.finish do
    let i ← regIdx r
    return (s.emit (s.reg i)).setPc (s.pc + 2)

/-- HLT (R92): the pc stays at the HLT byte. -/
def execHlt (s : State) : Host.Outcome State Fault Refusal := s.finish (.ok s.halt)

end Sys2Proof.Machine
end

