-- ==== Sys2Proof/Machine/Stack.lean ====
section
/-! DEFINITION. PUSH and POP (spec/43_stack.md R110 to R112), the sub-operations in the order the rules list them. -/

namespace Sys2Proof.Machine

/-- PUSH r (R111): `x[r]` is read after the decrement. -/
def execPush (r : Byte) (s : State) : Host.Outcome State Fault Refusal :=
  s.finish do
    let i ← regIdx r
    let t ← s.decSp.writeTop (s.decSp.reg i).toNat
    return t.setPc (s.pc + 2)

/-- POP r (R112): the increment is applied after the write of `x[r]`. -/
def execPop (r : Byte) (s : State) : Host.Outcome State Fault Refusal :=
  s.finish do
    let i ← regIdx r
    let v ← s.readTop
    return (s.setReg i v.toNat).incSp.setPc (s.pc + 2)

end Sys2Proof.Machine
end

