-- ==== Sys2Proof/Machine/Loop.lean ====
section
/-! DEFINITION. The fetch-decode-execute loop's one step, for any opcode values (spec/40_fetch_decode_execute.md R70 to R82),
and placing an instruction where the next step fetches. -/

namespace Sys2Proof.Machine

/-- The bytes that exist at `pc`, `pc + 1`, `pc + 2`, the most an instruction can have (spec/30_encoding.md R50). Reading has
no side effect (spec/20_memory.md R36), so reading them together is reading them in turn. -/
def State.fetchWindow (s : State) : List Byte :=
  ([s.pc, s.pc + 1, s.pc + 2].filter (fun a => a < Config.memSize)).map s.memAt

/-- The cause a rejection of the decoder raises (spec/60_exceptions.md R141, R142). -/
def rejectCause (pc0 : Nat) : Reject → Cause
  | .noOpcode         => ⟨.addressFault, some pc0⟩
  | .unknownOpcode op => ⟨.unknownOpcode, some op.toNat⟩
  | .missingOperand k => ⟨.addressFault, some (pc0 + k)⟩

/-- Phases 1 to 3 of R70: fetch, decode and dispatch, operand fetch. -/
def State.fetchDecode (c : Config.Opcodes) (s : State) : Except Cause Instr :=
  match decodeWith c s.fetchWindow with
  | .ok (i, _) => .ok i
  | .error r   => .error (rejectCause s.pc r)

/-- One step (R70) with the opcode values `c`. HALTED and FAULTED have none (R79). Phases 4 and 5 are the instruction's own
meaning, which also sets pc (R77). -/
def stepWith (c : Config.Opcodes) (s : State) : Host.Outcome State Fault Refusal :=
  match s.status with
  | .halted  => .fault .haltedHasNoStep
  | .faulted => .fault .faultedHasNoStep
  | .running =>
    match s.fetchDecode c with
    | .ok i    => exec i s
    | .error r => .next (s.enterFault r)

/-- `s` with the bytes of a table word stored from `pc` upward: the loader's work, done for one instruction (log entry 7). -/
def State.placeAtPc (s : State) (bytes : List Byte) : State := { s with mem := s.mem.placeBytes s.pc bytes }

end Sys2Proof.Machine
end

