-- ==== Sys2Proof/Machine/Step.lean ====
section
/-! DEFINITION. The machine's step, with the default opcode values. -/

namespace Sys2Proof.Machine

/-- One step of the machine (spec/40_fetch_decode_execute.md R70). -/
def step (s : State) : Host.Outcome State Fault Refusal := stepWith defaultOpcodes s

/-- `s` with the table word stored where `step` fetches its next instruction. -/
def State.withFetchWord (s : State) (nbits w : Nat) : State := s.placeAtPc (tableBytes nbits w)

end Sys2Proof.Machine
end

