-- ==== Sys2Proof/Machine/HostPort.lean ====
section
/-! DEFINITION. The host's part (spec/70_reset_and_hazards.md R170 to R175): loading an image, launching, tracing, and the
report at the end of a run. None of it acts during a step. -/

namespace Sys2Proof.Machine

/-- "copy it verbatim into Memory from address 0 upward" (R171). -/
def State.load (s : State) (img : List Byte) : State := { s with mem := s.mem.placeBytes Config.loadBase img }

/-- Reset, then load (R170). An image of more than 256 bytes has no launch state (R172). -/
def launch (img : List Byte) : Host.Outcome State Fault Refusal :=
  if img.length ≤ Config.memSize then .next (State.reset.load img) else .refused .imageTooLong

/-- What the tracer may read between instructions (spec/60_exceptions.md R153). -/
structure TraceView where
  pc     : Nat
  /-- The three bytes starting at pc; none above address 255, where the spec leaves it to the tracer (log entry 12). -/
  window : List (Option Byte)
  regs   : List Byte
  deriving DecidableEq, Repr

/-- The tracer's read of one byte. -/
def State.traceByte (s : State) (a : Nat) : Option Byte := if a < Config.memSize then some (s.memAt a) else none

/-- The tracer's view; a function of the state, so it has no effect on the core (R153). -/
def State.trace (s : State) : TraceView where
  pc     := s.pc
  window := [s.traceByte s.pc, s.traceByte (s.pc + 1), s.traceByte (s.pc + 2)]
  regs   := s.regs.toList

/-- The status output: status and, when FAULTED, the fault record (spec/60_exceptions.md R155). -/
def State.report (s : State) : Status × Option FaultRecord :=
  (s.status, if s.status = .faulted then s.fault else none)

end Sys2Proof.Machine
end

