-- ==== Sys2Proof/Safety.lean ====
section
/-! DEFINITION. The words claims are stated in: what stays the same, what a fault leaves, the invariant, and a run that
succeeds. -/

namespace Sys2Proof.Machine

/-- An operand byte names a register (spec/30_encoding.md R54). -/
def Names (b : Byte) (i : RegIndex) : Prop := b.toNat = i.val

/-- Every register outside the list keeps its value. -/
def SameRegsBut (ds : List RegIndex) (s t : State) : Prop := ∀ j, j ∉ ds → t.reg j = s.reg j

/-- Every byte of memory reads as before. -/
def SameMem (s t : State) : Prop := ∀ a, t.memAt a = s.memAt a

/-- Every byte of memory but the one at `a` reads as before. -/
def SameMemBut (a : Nat) (s t : State) : Prop := ∀ b, b ≠ a → t.memAt b = s.memAt b

/-- The run goes on as it was: neither status nor fault record has changed. -/
def SameRun (s t : State) : Prop := t.status = s.status ∧ t.fault = s.fault

/-- The outcome is fault entry from `s` (spec/60_exceptions.md R146): FAULTED, this record, and everything else as it was. -/
def FaultsFrom (s : State) (kind : FaultKind) (opcode : Option Byte) (info : Nat)
    (o : Host.Outcome State Fault Refusal) : Prop :=
  ∃ t, o = .next t ∧ t.status = .faulted ∧ t.fault = some ⟨kind, opcode, s.pc, some info⟩ ∧
    SameRegsBut [] s t ∧ t.pc = s.pc ∧ t.flag = s.flag ∧ SameMem s t ∧ t.out = s.out

/-- `s` is RUNNING and the byte at its pc is `op`. -/
def RunningAt (s : State) (op : Byte) : Prop := s.status = .running ∧ s.pc ≤ 255 ∧ s.memAt s.pc = op

/-- A bad byte of the instruction stops it with RegisterIndexFault, whatever the state (spec/60_exceptions.md R143). -/
def FaultsOnRegByte (i : Instr) (b : Byte) : Prop :=
  ∀ s, FaultsFrom s .registerIndexFault s.fetchedOpcode b.toNat (exec i s)

/-- An instruction of the kind whose bytes (for RET, with the peeked one) run past address 255 stops with AddressFault(256)
(spec/60_exceptions.md R142, spec/70_reset_and_hazards.md R180). -/
def FaultsPastEnd (k : OpKind) : Prop :=
  ∀ c s, admissible c → RunningAt s (opcodeOf c k) → 256 < s.pc + formatReads (formatOf k) →
    FaultsFrom s .addressFault (some (opcodeOf c k)) 256 (stepWith c s)

/-- The byte, if it is no register index. -/
def badRegByte (b : Byte) : Option Nat := if 7 < b.toNat then some b.toNat else none

/-- The first register-index byte above 7 that an instruction of the kind at the pc has, first operand before second
(spec/60_exceptions.md R143, R148); for RET the peeked byte. -/
def firstBadRegByte (k : OpKind) (s : State) : Option Nat :=
  match formatOf k with
  | .f0 => none
  | .f1r | .f2ri | .f0p => badRegByte (s.memAt (s.pc + 1))
  | .f2rr => (badRegByte (s.memAt (s.pc + 1))).or (badRegByte (s.memAt (s.pc + 2)))

/-- The "registers written" column of spec/10_state.md R12; `b1` is the byte after the opcode. -/
def WritesReg (k : OpKind) (b1 : Byte) (j : RegIndex) : Prop :=
  match k with
  | .ldi | .add | .mul => Names b1 j
  | .push | .call      => j = sp
  | .pop | .ret        => Names b1 j ∨ j = sp
  | .prn | .hlt | .cmp | .jmp | .jeq | .jne => False

/-- The table of spec/10_state.md R15 for an instruction that does not fault, from `s` to `t`. CALL's target register is read
after SP has moved (spec/44_control_transfer.md R121), so from `t`. -/
def NextPcIs (k : OpKind) (s t : State) : Prop :=
  let b1 := s.memAt (s.pc + 1)
  match k with
  | .ldi | .add | .mul | .cmp => t.pc = s.pc + 3
  | .prn | .push | .pop       => t.pc = s.pc + 2
  | .hlt  => t.pc = s.pc
  | .call => ∃ i, Names b1 i ∧ t.pc = (t.reg i).toNat
  | .jmp  => ∃ i, Names b1 i ∧ t.pc = (s.reg i).toNat
  | .ret  => t.pc = (s.memAt (s.reg sp).toNat).toNat
  | .jeq  => ∃ i, Names b1 i ∧ t.pc = if s.flag then (s.reg i).toNat else s.pc + 2
  | .jne  => ∃ i, Names b1 i ∧ t.pc = if s.flag then s.pc + 2 else (s.reg i).toNat

/-- What the fault record may say once a run is FAULTED (spec/60_exceptions.md R140 to R144): the pc is the state's own; an
unknown opcode is the opcode; an address is 256, met at 254 at the earliest; a register-index byte is above 7;
UnsupportedAluOp is never raised. -/
def RecordOk (s : State) (r : FaultRecord) : Prop :=
  r.pc = s.pc ∧ (r.opcode = none ↔ s.pc = 256) ∧
  match r.kind with
  | .unknownOpcode      => ∃ op, r.opcode = some op ∧ r.info = some op.toNat
  | .addressFault       => r.info = some 256 ∧ 254 ≤ s.pc
  | .registerIndexFault => ∃ b, 8 ≤ b ∧ b ≤ 255 ∧ r.info = some b
  | .unsupportedAluOp   => False

/-- The invariant: memory is canonical, pc is 0 to 256 (spec/10_state.md R14), a record exists exactly when FAULTED (R20), and
it says what a record may say. -/
def StateInv (s : State) : Prop :=
  s.mem.wf ∧ s.pc ≤ 256 ∧ (s.status = .faulted ↔ s.fault ≠ none) ∧ ∀ r, s.fault = some r → RecordOk s r

/-- A run from `s` that ends HALTED after `n` steps in `t`: the only successful end
(spec/40_fetch_decode_execute.md R79). -/
def HaltsIn (n : Nat) (s t : State) : Prop := Host.Core.run Sys2Proof.core n s = .next t ∧ t.status = .halted

end Sys2Proof.Machine
end

