-- ==== Sys2Proof/Certificates/Slice0/Obligations.lean ====
section
/-! DEFINITION. The statements for the provers. Each docstring names the rule of spec/ it formalises. Opcode values are
quantified (`admissible c`) wherever a statement does not need the defaults (spec/92_eei_decisions.md D3). -/

open Sys2Proof Sys2Proof.Machine

/-! ## Reset and load -/

/-- R23, R25: every field of the reset state but SP, and every memory cell (R26). -/
def Obligations.ResetLeavesTheStatedValues : Prop :=
  (∀ i : RegIndex, i ≠ sp → State.reset.reg i = 0) ∧ State.reset.pc = 0 ∧ State.reset.flag = false ∧
  State.reset.status = .running ∧ State.reset.fault = none ∧ State.reset.out = [] ∧ ∀ a, State.reset.memAt a = 0

/-- R24: SP is 0xF4 = 244 after reset, and the first push, of any register, writes address 0xF3 and no other. -/
def Obligations.ResetStackPointerAndFirstPush : Prop :=
  State.reset.reg sp = 0xF4 ∧ (State.reset.reg sp).toNat = 244 ∧
  ∀ (r : Byte) (i : RegIndex) (s : State), Names r i → s.reg sp = State.reset.reg sp →
    ∃ t, exec (.push r) s = .next t ∧ t.memAt 0xF3 = (if i = sp then 0xF3 else s.reg i) ∧ SameMemBut 0xF3 s t ∧
      t.reg sp = 0xF3

/-- R26, R171: the image is copied verbatim from address 0 upward, every other cell stays 0, nothing else differs from reset;
an empty image makes the first step stop with UnknownOpcode 0x00 (no opcode value of the machine's is 0x00). -/
def Obligations.LaunchCopiesTheImageVerbatim : Prop :=
  (∀ a, State.reset.memAt a = 0) ∧
  (∀ img : List Byte, img.length ≤ 256 →
    ∃ t, launch img = .next t ∧ (∀ k (hk : k < img.length), t.memAt k = img[k]) ∧
      (∀ k, img.length ≤ k → t.memAt k = 0) ∧ { t with mem := State.reset.mem } = State.reset) ∧
  ∃ t, launch [] = .next t ∧ FaultsFrom t .unknownOpcode (some 0x00) 0x00 (step t)

/-- R172: an image of more than 256 bytes has no launch state; one of at most 256 has, and one of exactly 256 fills memory. -/
def Obligations.OverlongImageHasNoLaunchState : Prop :=
  ∀ img : List Byte,
    (256 < img.length → launch img = .refused .imageTooLong) ∧
    (img.length ≤ 256 → ∃ t, launch img = .next t) ∧
    (img.length = 256 → ∃ t, launch img = .next t ∧ ∀ a, a ≤ 255 → img[a]? = some (t.memAt a))

/-! ## Memory -/

/-- R31, and the effect of a write it reads back (R32): inside memory a read gives the cell and a write changes that cell
only; above 255 either raises AddressFault with the address. -/
def Obligations.MemoryReadGivesTheLastWrite : Prop :=
  ∀ (s : State) (a : Nat) (v : Int),
    (a ≤ 255 → s.memRead a = .ok (s.memAt a)) ∧
    (a ≤ 255 → ∃ t, s.memWrite a v = .ok t ∧ t.memRead a = .ok (trunc8 v) ∧ SameMemBut a s t ∧ SameRegsBut [] s t ∧
      t.pc = s.pc ∧ t.flag = s.flag ∧ SameRun s t ∧ t.out = s.out) ∧
    (255 < a → s.memRead a = .error ⟨.addressFault, some a⟩ ∧ s.memWrite a v = .error ⟨.addressFault, some a⟩)

/-- The model's canonical form (log entry 9): memories in it that read alike are equal. -/
def Obligations.CanonicalMemoriesThatReadAlikeAreEqual : Prop :=
  ∀ m n : Memory, m.wf → n.wf → (∀ a, m.byteAt a = n.byteAt a) → m = n

/-! ## Encoding -/

/-- R72: the lookup compares the whole byte, at most one kind matches, and a byte that equals none yields none. -/
def Obligations.LookupYieldsTheOneKindWithThatOpcode : Prop :=
  ∀ c op, admissible c →
    (∀ k, lookup c op = some k ↔ opcodeOf c k = op) ∧ (lookup c op = none ↔ ∀ k, opcodeOf c k ≠ op)

/-- Decode and encode agree, for every admissible choice of opcode values (R50 to R53, R57): no bit of an encoding is
dropped, and what follows the instruction is handed back. -/
def Obligations.DecodeOfEncodeGivesTheInstructionBack : Prop :=
  ∀ c (i : Instr) (rest : List Byte), admissible c → decodeWith c (encodeWith c i ++ rest) = .ok (i, rest)

/-- The other direction: the bytes the decoder consumed are the encoding of what it gave, so a word has one meaning. -/
def Obligations.EncodeOfDecodeGivesTheBytesBack : Prop :=
  ∀ c (bytes rest : List Byte) (i : Instr), decodeWith c bytes = .ok (i, rest) → encodeWith c i ++ rest = bytes

/-- R63: the source's own encodings, both ways. -/
def Obligations.SourceEncodingsDecode : Prop :=
  decode [0x82, 0x00, 0x08] = .ok (.ldi 0 8, []) ∧ encode (.ldi 0 8) = [0x82, 0x00, 0x08] ∧
  decode [0xA0, 0x00, 0x01] = .ok (.add 0 1, []) ∧ encode (.add 0 1) = [0xA0, 0x00, 0x01] ∧
  decode [0x47, 0x00] = .ok (.prn 0, []) ∧ encode (.prn 0) = [0x47, 0x00] ∧
  decode [0x01] = .ok (.hlt, []) ∧ encode .hlt = [0x01]

/-- Words with the nine default opcode values, which the spec takes from general knowledge (log entry 1, R57), written out bit
by bit; RET's word is one byte and leaves the peeked byte alone (R60). -/
def Obligations.DefaultOpcodeWordsDecode : Prop :=
  decode [0b10100010, 3, 4] = .ok (.mul 3 4, []) ∧ decode [0b01000101, 2] = .ok (.push 2, []) ∧
  decode [0b01000110, 5] = .ok (.pop 5, []) ∧ decode [0b01010000, 1] = .ok (.call 1, []) ∧
  decode [0b00010001, 1] = .ok (.ret, [1]) ∧ decode [0b10100111, 6, 7] = .ok (.cmp 6 7, []) ∧
  decode [0b01010100, 2] = .ok (.jmp 2, []) ∧ decode [0b01010101, 2] = .ok (.jeq 2, []) ∧
  decode [0b01010110, 2] = .ok (.jne 2, [])

/-! ## The loop -/

/-- A step runs the decoded instruction: when the bytes at the pc are an instruction's encoding, the step is `exec` of it at
that very state; the loop adds nothing around it (R70, R77). -/
def Obligations.StepExecutesTheInstructionAtThePc : Prop :=
  (∀ c s i, admissible c → s.status = .running →
    (∀ k (hk : k < (encodeWith c i).length), s.pc + k ≤ 255 ∧ s.memAt (s.pc + k) = (encodeWith c i)[k]) →
    stepWith c s = exec i s) ∧
  ∀ s i, s.status = .running →
    (∀ k (hk : k < (encode i).length), s.pc + k ≤ 255 ∧ s.memAt (s.pc + k) = (encode i)[k]) → step s = exec i s

/-- Where the loader's placing of a table word is seen: the next step runs the instruction the decoder reads from the word
(log entry 7; R170, R171). -/
def Obligations.PlacedTableWordIsWhatTheNextStepRuns : Prop :=
  ∀ (s : State) (nbits w : Nat) (i : Instr), s.status = .running → s.pc ≤ 253 → decodeTableWord nbits w = some i →
    step (s.withFetchWord nbits w) = exec i (s.withFetchWord nbits w)

/-- R79, R80: a RUNNING state always has a next state; HALTED and FAULTED have none. -/
def Obligations.StepHasANextStateExactlyWhenRunning : Prop :=
  ∀ c s, ((∃ t, stepWith c s = .next t) ↔ s.status = .running) ∧
    (s.status = .halted → stepWith c s = .fault .haltedHasNoStep) ∧
    (s.status = .faulted → stepWith c s = .fault .faultedHasNoStep)

/-! ## The instructions -/

/-- R90. -/
def Obligations.LdiLoadsTheImmediate : Prop :=
  (∀ s r imm i, Names r i → ∃ t, exec (.ldi r imm) s = .next t ∧ t.reg i = imm ∧ t.pc = s.pc + 3 ∧
    SameRegsBut [i] s t ∧ SameMem s t ∧ t.flag = s.flag ∧ t.out = s.out ∧ SameRun s t) ∧
  (∀ r imm, 7 < r.toNat → FaultsOnRegByte (.ldi r imm) r) ∧ FaultsPastEnd .ldi ∧
  ∀ c r imm, encodeWith c (.ldi r imm) = [0x82, r, imm]

/-- R91. -/
def Obligations.PrnEmitsTheRegister : Prop :=
  (∀ s r i, Names r i → ∃ t, exec (.prn r) s = .next t ∧ t.out = s.out ++ [s.reg i] ∧ t.pc = s.pc + 2 ∧
    SameRegsBut [] s t ∧ SameMem s t ∧ t.flag = s.flag ∧ SameRun s t) ∧
  (∀ r, 7 < r.toNat → FaultsOnRegByte (.prn r) r) ∧ FaultsPastEnd .prn ∧
  ∀ c r, encodeWith c (.prn r) = [0x47, r]

/-- R92: at any address, 255 included; the pc stays at the HLT byte, and there is no further step. -/
def Obligations.HltHaltsAndHoldsThePc : Prop :=
  (∀ s, ∃ t, exec .hlt s = .next t ∧ t.status = .halted ∧ t.pc = s.pc ∧ t.fault = s.fault ∧
    SameRegsBut [] s t ∧ SameMem s t ∧ t.flag = s.flag ∧ t.out = s.out) ∧
  (∀ c s, admissible c → RunningAt s 0x01 →
    ∃ t, stepWith c s = .next t ∧ t.status = .halted ∧ t.pc = s.pc ∧ stepWith c t = .fault .haltedHasNoStep) ∧
  ∀ c, encodeWith c .hlt = [0x01]

/-- R101. -/
def Obligations.AddStoresTheSumModulo256 : Prop :=
  (∀ s ra rb i j, Names ra i → Names rb j → ∃ t, exec (.add ra rb) s = .next t ∧
    (t.reg i).toNat = ((s.reg i).toNat + (s.reg j).toNat) % 256 ∧ t.pc = s.pc + 3 ∧
    SameRegsBut [i] s t ∧ SameMem s t ∧ t.flag = s.flag ∧ t.out = s.out ∧ SameRun s t) ∧
  (∀ ra rb, 7 < ra.toNat → FaultsOnRegByte (.add ra rb) ra) ∧
  (∀ ra rb, ra.toNat ≤ 7 → 7 < rb.toNat → FaultsOnRegByte (.add ra rb) rb) ∧ FaultsPastEnd .add ∧
  ∀ c ra rb, encodeWith c (.add ra rb) = [0xA0, ra, rb]

/-- R102: the low 8 bits of the unsigned product. -/
def Obligations.MulStoresTheProductModulo256 : Prop :=
  (∀ s ra rb i j, Names ra i → Names rb j → ∃ t, exec (.mul ra rb) s = .next t ∧
    (t.reg i).toNat = ((s.reg i).toNat * (s.reg j).toNat) % 256 ∧ t.pc = s.pc + 3 ∧
    SameRegsBut [i] s t ∧ SameMem s t ∧ t.flag = s.flag ∧ t.out = s.out ∧ SameRun s t) ∧
  (∀ ra rb, 7 < ra.toNat → FaultsOnRegByte (.mul ra rb) ra) ∧
  (∀ ra rb, ra.toNat ≤ 7 → 7 < rb.toNat → FaultsOnRegByte (.mul ra rb) rb) ∧ FaultsPastEnd .mul ∧
  ∀ c ra rb, encodeWith c (.mul ra rb) = [c.mul, ra, rb]

/-- R103, with its truth table: 1 when the registers are equal, otherwise as it was. -/
def Obligations.CmpSetsTheFlagOnEqualityOnly : Prop :=
  (∀ s ra rb i j, Names ra i → Names rb j → ∃ t, exec (.cmp ra rb) s = .next t ∧
    (s.reg i = s.reg j → t.flag = true) ∧ (s.reg i ≠ s.reg j → t.flag = s.flag) ∧ t.pc = s.pc + 3 ∧
    SameRegsBut [] s t ∧ SameMem s t ∧ t.out = s.out ∧ SameRun s t) ∧
  (∀ ra rb, 7 < ra.toNat → FaultsOnRegByte (.cmp ra rb) ra) ∧
  (∀ ra rb, ra.toNat ≤ 7 → 7 < rb.toNat → FaultsOnRegByte (.cmp ra rb) rb) ∧ FaultsPastEnd .cmp ∧
  ∀ c ra rb, encodeWith c (.cmp ra rb) = [c.cmp, ra, rb]

/-- R111: SP goes down by one modulo 256, then `x[r]`, read after that, is stored at the new SP, and no other byte changes. -/
def Obligations.PushStoresAtTheDecrementedStackPointer : Prop :=
  (∀ s r i, Names r i → ∃ t, exec (.push r) s = .next t ∧ t.reg sp = s.reg sp - 1 ∧ t.pc = s.pc + 2 ∧
    (∀ a, a = (s.decSp.reg sp).toNat → t.memAt a = (if i = sp then s.reg sp - 1 else s.reg i) ∧ SameMemBut a s t) ∧
    SameRegsBut [sp] s t ∧ t.flag = s.flag ∧ t.out = s.out ∧ SameRun s t) ∧
  (∀ r, 7 < r.toNat → FaultsOnRegByte (.push r) r) ∧ FaultsPastEnd .push ∧
  ∀ c r, encodeWith c (.push r) = [c.push, r]

/-- R112: `x[r]` takes the byte at SP, then SP goes up by one modulo 256; for r7 the popped byte plus one. -/
def Obligations.PopLoadsFromTheStackPointer : Prop :=
  (∀ s r i, Names r i → ∃ t, exec (.pop r) s = .next t ∧
    (i ≠ sp → t.reg i = s.memAt (s.reg sp).toNat ∧ t.reg sp = s.reg sp + 1) ∧
    (i = sp → t.reg sp = s.memAt (s.reg sp).toNat + 1) ∧ t.pc = s.pc + 2 ∧
    SameRegsBut [i, sp] s t ∧ SameMem s t ∧ t.flag = s.flag ∧ t.out = s.out ∧ SameRun s t) ∧
  (∀ r, 7 < r.toNat → FaultsOnRegByte (.pop r) r) ∧ FaultsPastEnd .pop ∧
  ∀ c r, encodeWith c (.pop r) = [c.pop, r]

/-- R121: the byte stored at the decremented SP is `pc0 + 2` modulo 256 (0 at address 254), no other byte changes, and the
target is `x[r]` read after the decrement. -/
def Obligations.CallPushesTheReturnAddressAndJumps : Prop :=
  (∀ s r i, Names r i → ∃ t, exec (.call r) s = .next t ∧ t.reg sp = s.reg sp - 1 ∧
    (i ≠ sp → t.pc = (s.reg i).toNat) ∧ (i = sp → t.pc = (s.reg sp - 1).toNat) ∧
    (∀ a, a = (s.decSp.reg sp).toNat → (t.memAt a).toNat = (s.pc + 2) % 256 ∧ SameMemBut a s t) ∧
    SameRegsBut [sp] s t ∧ t.flag = s.flag ∧ t.out = s.out ∧ SameRun s t) ∧
  (∀ r, 7 < r.toNat → FaultsOnRegByte (.call r) r) ∧ FaultsPastEnd .call ∧
  ∀ c r, encodeWith c (.call r) = [c.call, r]

/-- R122: the byte after RET names the register that takes the return address; a byte above 7 or no such byte is a fault that
leaves everything as it was. -/
def Obligations.RetReturnsAndWritesThePeekedRegister : Prop :=
  (∀ s i, s.pc + 1 ≤ 255 → Names (s.memAt (s.pc + 1)) i → ∃ t, exec .ret s = .next t ∧
    t.pc = (s.memAt (s.reg sp).toNat).toNat ∧
    (i ≠ sp → t.reg i = s.memAt (s.reg sp).toNat ∧ t.reg sp = s.reg sp + 1) ∧
    (i = sp → t.reg sp = s.memAt (s.reg sp).toNat + 1) ∧
    SameRegsBut [i, sp] s t ∧ SameMem s t ∧ t.flag = s.flag ∧ t.out = s.out ∧ SameRun s t) ∧
  (∀ s, s.pc + 1 ≤ 255 → 7 < (s.memAt (s.pc + 1)).toNat →
    FaultsFrom s .registerIndexFault s.fetchedOpcode (s.memAt (s.pc + 1)).toNat (exec .ret s)) ∧ FaultsPastEnd .ret ∧
  ∀ c, encodeWith c .ret = [c.ret]

/-- R123. -/
def Obligations.JmpGoesToTheRegister : Prop :=
  (∀ s r i, Names r i → ∃ t, exec (.jmp r) s = .next t ∧ t.pc = (s.reg i).toNat ∧
    SameRegsBut [] s t ∧ SameMem s t ∧ t.flag = s.flag ∧ t.out = s.out ∧ SameRun s t) ∧
  (∀ r, 7 < r.toNat → FaultsOnRegByte (.jmp r) r) ∧ FaultsPastEnd .jmp ∧
  ∀ c r, encodeWith c (.jmp r) = [c.jmp, r]

/-- R124: the operand is checked in the taken and in the not-taken case. -/
def Obligations.JeqBranchesWhenTheFlagIsSet : Prop :=
  (∀ s r i, Names r i → ∃ t, exec (.jeq r) s = .next t ∧
    (s.flag = true → t.pc = (s.reg i).toNat) ∧ (s.flag = false → t.pc = s.pc + 2) ∧
    SameRegsBut [] s t ∧ SameMem s t ∧ t.flag = s.flag ∧ t.out = s.out ∧ SameRun s t) ∧
  (∀ r, 7 < r.toNat → FaultsOnRegByte (.jeq r) r) ∧ FaultsPastEnd .jeq ∧
  ∀ c r, encodeWith c (.jeq r) = [c.jeq, r]

/-- R125. -/
def Obligations.JneBranchesWhenTheFlagIsClear : Prop :=
  (∀ s r i, Names r i → ∃ t, exec (.jne r) s = .next t ∧
    (s.flag = false → t.pc = (s.reg i).toNat) ∧ (s.flag = true → t.pc = s.pc + 2) ∧
    SameRegsBut [] s t ∧ SameMem s t ∧ t.flag = s.flag ∧ t.out = s.out ∧ SameRun s t) ∧
  (∀ r, 7 < r.toNat → FaultsOnRegByte (.jne r) r) ∧ FaultsPastEnd .jne ∧
  ∀ c r, encodeWith c (.jne r) = [c.jne, r]

/-- R126: from one state with one operand, one of the two goes to the register and the other to `pc0 + 2`. -/
def Obligations.JeqAndJneAreComplements : Prop :=
  ∀ s r i, Names r i → ∃ t u, exec (.jeq r) s = .next t ∧ exec (.jne r) s = .next u ∧
    ((s.flag = true ∧ t.pc = (s.reg i).toNat ∧ u.pc = s.pc + 2) ∨
     (s.flag = false ∧ t.pc = s.pc + 2 ∧ u.pc = (s.reg i).toNat))

/-- The ALU as a block (R100, R104, R105): exact modulo 256, equality only, and any other kind is UnsupportedAluOp, which no
step records. -/
def Obligations.AluComputesModulo256AndRefusesOtherKinds : Prop :=
  (∀ a b : Byte, ∃ v w e, alu .add a b = .ok (.result v) ∧ v.toNat = (a.toNat + b.toNat) % 256 ∧
    alu .multiply a b = .ok (.result w) ∧ w.toNat = (a.toNat * b.toNat) % 256 ∧
    alu .compare a b = .ok (.equal e) ∧ (e = true ↔ a = b)) ∧
  (∀ n a b, alu (.other n) a b = .error ⟨.unsupportedAluOp, none⟩) ∧
  ∀ c s t r, s.fault = none → stepWith c s = .next t → t.fault = some r → r.kind ≠ .unsupportedAluOp

/-! ## Faults -/

/-- R148: the fault reported is the first in phase order. -/
def Obligations.FirstFaultInPhaseOrderIsReported : Prop :=
  ∀ c s, admissible c → s.status = .running →
    (255 < s.pc → FaultsFrom s .addressFault none s.pc (stepWith c s)) ∧
    (s.pc ≤ 255 → (∀ k, opcodeOf c k ≠ s.memAt s.pc) →
      FaultsFrom s .unknownOpcode (some (s.memAt s.pc)) (s.memAt s.pc).toNat (stepWith c s)) ∧
    (∀ k, RunningAt s (opcodeOf c k) → 256 < s.pc + formatReads (formatOf k) →
      FaultsFrom s .addressFault (some (opcodeOf c k)) 256 (stepWith c s)) ∧
    (∀ k n, RunningAt s (opcodeOf c k) → s.pc + formatReads (formatOf k) ≤ 256 → firstBadRegByte k s = some n →
      FaultsFrom s .registerIndexFault (some (opcodeOf c k)) n (stepWith c s))

/-- R146, R147: a step that ends FAULTED has changed nothing but status and record, the record names the byte fetched and the
pc, and the run is over. -/
def Obligations.FaultingStepChangesOnlyStatusAndRecord : Prop :=
  ∀ c s t, stepWith c s = .next t → t.status = .faulted →
    (∃ kind info, FaultsFrom s kind s.fetchedOpcode info (stepWith c s)) ∧ stepWith c t = .fault .faultedHasNoStep

/-- R141: UnknownOpcode exactly for a byte that is none of the thirteen values, and nowhere else. -/
def Obligations.UnknownOpcodeExactlyForBytesOutsideTheThirteen : Prop :=
  ∀ c s, s.status = .running → s.fault = none →
    ((s.pc ≤ 255 ∧ ∀ k, opcodeOf c k ≠ s.memAt s.pc) ↔
      ∃ t r, stepWith c s = .next t ∧ t.fault = some r ∧ r.kind = .unknownOpcode) ∧
    (s.pc ≤ 255 → (∀ k, opcodeOf c k ≠ s.memAt s.pc) →
      FaultsFrom s .unknownOpcode (some (s.memAt s.pc)) (s.memAt s.pc).toNat (stepWith c s))

/-- R142: AddressFault exactly for the fetch at 256 and for an operand (or peek) past 255, and the address is 256. The pc
bound is part of the invariant (R14). -/
def Obligations.AddressFaultExactlyAtTheEndOfMemory : Prop :=
  ∀ c s, admissible c → s.status = .running → s.fault = none → s.pc ≤ 256 →
    ((s.pc = 256 ∨ ∃ k, RunningAt s (opcodeOf c k) ∧ 256 < s.pc + formatReads (formatOf k)) ↔
      ∃ t r, stepWith c s = .next t ∧ t.fault = some r ∧ r.kind = .addressFault) ∧
    ∀ t r, stepWith c s = .next t → t.fault = some r → r.kind = .addressFault →
      r = ⟨.addressFault, s.fetchedOpcode, s.pc, some 256⟩

/-- R143: RegisterIndexFault exactly when the instruction's bytes are all in memory and one of its register bytes is above 7,
and the first such byte is reported. -/
def Obligations.RegisterIndexFaultExactlyForABadRegisterByte : Prop :=
  ∀ c s n, admissible c → s.status = .running → s.fault = none →
    ((∃ k, RunningAt s (opcodeOf c k) ∧ s.pc + formatReads (formatOf k) ≤ 256 ∧ firstBadRegByte k s = some n) ↔
      ∃ t, stepWith c s = .next t ∧ t.fault = some ⟨.registerIndexFault, s.fetchedOpcode, s.pc, some n⟩)

/-- R81: a step does not fault exactly when the opcode is known, the bytes it reads are in memory and every register byte is 0
to 7; "an instruction that passes phase 4 always completes". -/
def Obligations.StepCompletesExactlyWhenEveryCheckPasses : Prop :=
  ∀ c s, admissible c → s.status = .running →
    ((∃ t, stepWith c s = .next t ∧ t.status ≠ .faulted) ↔
      ∃ k, RunningAt s (opcodeOf c k) ∧ s.pc + formatReads (formatOf k) ≤ 256 ∧ firstBadRegByte k s = none)

/-! ## The whole machine -/

/-- The invariant holds after reset (its canonical memory is the model's own form, log entry 9). -/
def Obligations.InvariantHoldsAtReset : Prop := StateInv State.reset

/-- The invariant holds in every launch state (its canonical memory is the model's own form, log entry 9). -/
def Obligations.InvariantHoldsAtLaunch : Prop := ∀ img t, launch img = .next t → StateInv t

/-- Every step keeps the invariant, for any opcode values: memory canonical (log entry 9), pc 0 to 256 (R14), a fault
record exactly when FAULTED (R19, R20), and a record that says only what R140 to R144 let it say. -/
def Obligations.EveryStepKeepsTheInvariant : Prop := ∀ c s t, StateInv s → stepWith c s = .next t → StateInv t

/-- R18: no step clears the flag, only a CMP of equal registers sets it, only JEQ and JNE read it, the tracer does not see it,
and it is 0 after reset. -/
def Obligations.FlagIsWrittenOnlyByCmpAndReadOnlyByBranches : Prop :=
  State.reset.flag = false ∧ (∀ (s : State) b, (s.setFlag b).trace = s.trace) ∧
  ∀ c s t, stepWith c s = .next t →
    (s.flag = true → t.flag = true) ∧
    (t.flag ≠ s.flag → s.memAt s.pc = opcodeOf c .cmp ∧
      ∃ i j, Names (s.memAt (s.pc + 1)) i ∧ Names (s.memAt (s.pc + 2)) j ∧ s.reg i = s.reg j) ∧
    (s.memAt s.pc ≠ opcodeOf c .jeq → s.memAt s.pc ≠ opcodeOf c .jne → ∀ b,
      ∃ u, stepWith c (s.setFlag b) = .next u ∧ u.setFlag t.flag = t)

/-- R21: the output history is empty after reset, only PRN appends to it, one value, and the core never reads it: with another
history the same step appends the same values and leaves the same rest. -/
def Obligations.OutputIsAppendedOnlyByPrnAndNeverRead : Prop :=
  State.reset.out = [] ∧
  ∀ c s t, stepWith c s = .next t →
    (t.out = s.out ∨ (s.memAt s.pc = opcodeOf c .prn ∧ ∃ i, Names (s.memAt (s.pc + 1)) i ∧ t.out = s.out ++ [s.reg i])) ∧
    ∀ o, ∃ e, t.out = s.out ++ e ∧ stepWith c { s with out := o } = .next { t with out := o ++ e }

/-- The "writes" column of R33: only PUSH and CALL change memory, and only the cell at SP minus one. -/
def Obligations.MemoryIsWrittenOnlyByPushAndCall : Prop :=
  ∀ c s t a, stepWith c s = .next t → t.memAt a ≠ s.memAt a →
    (s.memAt s.pc = opcodeOf c .push ∨ s.memAt s.pc = opcodeOf c .call) ∧ a = (s.reg sp - 1).toNat

/-- The "registers written" column of R12. -/
def Obligations.RegistersAreWrittenOnlyAsTheTableSays : Prop :=
  ∀ c s t j, stepWith c s = .next t → t.reg j ≠ s.reg j →
    ∃ k, RunningAt s (opcodeOf c k) ∧ WritesReg k (s.memAt (s.pc + 1)) j

/-- R15: the new pc of every instruction, and of every faulting step. -/
def Obligations.EveryInstructionSetsThePcAsTheTableSays : Prop :=
  ∀ c s t, admissible c → stepWith c s = .next t →
    (t.status = .faulted → t.pc = s.pc) ∧
    (t.status ≠ .faulted → ∀ k, s.memAt s.pc = opcodeOf c k → NextPcIs k s t)

/-- R19, R78: from a RUNNING state only HLT makes HALTED, only a fault makes FAULTED, and otherwise the run goes on. -/
def Obligations.StatusChangesOnlyByHltOrFault : Prop :=
  ∀ c s t, admissible c → s.fault = none → stepWith c s = .next t →
    (t.status = .halted ↔ RunningAt s (opcodeOf c .hlt)) ∧ (t.status = .faulted ↔ t.fault ≠ none) ∧
    (t.status ≠ .halted → t.status ≠ .faulted → t.status = .running)

/-- R113: PUSH then POP of one register puts every register back, adds 4 to the pc and changes one cell, for r7 too. -/
def Obligations.PushThenPopRestoresEveryRegister : Prop :=
  ∀ s r i, Names r i → ∃ t u, exec (.push r) s = .next t ∧ exec (.pop r) t = .next u ∧
    SameRegsBut [] s u ∧ u.pc = s.pc + 4 ∧ SameMemBut (s.reg sp - 1).toNat s u ∧
    u.memAt (s.reg sp - 1).toNat = (if i = sp then s.reg sp - 1 else s.reg i) ∧
    u.flag = s.flag ∧ u.out = s.out ∧ SameRun s u

/-- R127: a RET that finds SP and the stack cell as its CALL left them goes to the address of the CALL plus 2, puts SP back,
and writes that address into the register its next byte names; from a CALL at 254 it goes to 0. -/
def Obligations.RetUndoesItsCall : Prop :=
  ∀ s r i, Names r i → ∃ t, exec (.call r) s = .next t ∧
    ∀ u j, u.reg sp = t.reg sp → u.memAt (t.reg sp).toNat = t.memAt (t.reg sp).toNat → u.pc + 1 ≤ 255 →
      Names (u.memAt (u.pc + 1)) j → ∃ v, exec .ret u = .next v ∧
        (s.pc ≤ 253 → v.pc = s.pc + 2) ∧ (s.pc = 254 → v.pc = 0) ∧
        (j ≠ sp → v.reg sp = s.reg sp ∧ (v.reg j).toNat = v.pc) ∧ SameRegsBut [j, sp] u v

/-- R42: a PUSH onto the next instruction's first byte is what the next step fetches, and one onto its own operand byte still
pushes the register it was decoded with. -/
def Obligations.StoreIsSeenByTheNextFetch : Prop :=
  ∀ c s i, admissible c → RunningAt s (opcodeOf c .push) → s.pc ≤ 253 → Names (s.memAt (s.pc + 1)) i → i ≠ sp →
    ∃ t, stepWith c s = .next t ∧ t.pc = s.pc + 2 ∧
      ((s.reg sp - 1).toNat = s.pc + 2 → t.fetchedOpcode = some (s.reg i) ∧
        (s.reg i = opcodeOf c .hlt → ∃ u, stepWith c t = .next u ∧ u.status = .halted ∧ u.pc = s.pc + 2)) ∧
      ((s.reg sp - 1).toNat = s.pc + 1 → t.memAt (s.pc + 1) = s.reg i)

/-- R153: the tracer sees the pc, the three bytes at the pc and the registers, and nothing else; what two states agree on there
it shows alike, whatever their flag, status, fault record, output and other memory are. -/
def Obligations.TracerSeesOnlyPcWindowAndRegisters : Prop :=
  ∀ s t : State, (s.trace = t.trace ↔
    s.pc = t.pc ∧ SameRegsBut [] s t ∧ ∀ k, k ≤ 2 → s.pc + k ≤ 255 → s.memAt (s.pc + k) = t.memAt (s.pc + k))

/-! ## Along a run -/

/-- R18, R177: once set, the flag is 1 for the rest of the run; from then on JEQ always branches and JNE never does. -/
def Obligations.FlagStaysSetForTheRestOfTheRun : Prop :=
  ∀ n (s t : State), s.flag = true → Host.Core.run Sys2Proof.core n s = .next t → t.flag = true ∧
    ∀ r i, Names r i → (∃ u, exec (.jeq r) t = .next u ∧ u.pc = (t.reg i).toNat) ∧
      ∃ u, exec (.jne r) t = .next u ∧ u.pc = t.pc + 2

/-- From every launch state, along every run: the invariant holds (its canonical memory being the model's own form, log entry 9)
and what has been printed stays printed. -/
def Obligations.LaunchedRunsKeepTheInvariantAndTheirOutput : Prop :=
  ∀ img n m (s t u : State), launch img = .next s → Host.Core.run Sys2Proof.core n s = .next t →
    Host.Core.run Sys2Proof.core m t = .next u → StateInv u ∧ t.out <+: u.out

/-- R79, D20: a run that ends HALTED has no fault record and its pc holds the address of the HLT byte. -/
def Obligations.HaltedRunEndsAtAnHltByte : Prop :=
  ∀ n s t, s.status = .running → s.fault = none → HaltsIn n s t → t.fault = none ∧ t.pc ≤ 255 ∧ t.memAt t.pc = 0x01
end

