-- ==== Sys2Proof/Laws/Decode.lean ====
section
/-! SUPPORT. What the decoder's parts answer. -/

namespace Sys2Proof

theorem mem_opKinds (k : OpKind) : k ∈ opKinds := by cases k <;> decide

/-- A kind the lookup gives has that opcode, whatever the opcode values. -/
theorem opcodeOf_of_lookup {c : Config.Opcodes} {op : Byte} {k : OpKind} (h : lookup c op = some k) : opcodeOf c k = op := by
  simpa using List.find?_some h

/-- The lookup gives nothing only for a byte that is no opcode. -/
theorem opcodeOf_ne_of_lookup {c : Config.Opcodes} {op : Byte} (h : lookup c op = none) (k : OpKind) : opcodeOf c k ≠ op := by
  simpa using (List.find?_eq_none.mp h) k (mem_opKinds k)

/-- Pairwise distinct values: the opcode determines the kind. -/
theorem opcodeOf_inj {c : Config.Opcodes} (hc : admissible c) {k l : OpKind} (h : opcodeOf c k = opcodeOf c l) : k = l :=
  List.inj_on_of_nodup_map hc (mem_opKinds k) (mem_opKinds l) h

/-- Pairwise distinct values: every kind is found by its opcode. -/
theorem lookup_opcodeOf {c : Config.Opcodes} (hc : admissible c) (k : OpKind) : lookup c (opcodeOf c k) = some k := by
  cases h : lookup c (opcodeOf c k) with
  | none => exact absurd rfl (opcodeOf_ne_of_lookup h k)
  | some l => rw [opcodeOf_inj hc (opcodeOf_of_lookup h)]

theorem defaultOpcodes_admissible : admissible defaultOpcodes := by decide

/-- An instruction's bytes after its opcode give it back. -/
theorem takeOperands_operandBytes (i : Instr) (rest : List Byte) :
    takeOperands (kindOf i) (operandBytes i ++ rest) = .ok (i, rest) := by
  cases i <;> rfl

/-- No instruction is longer than three bytes (spec/30_encoding.md R50). -/
theorem encodeWith_length_le (c : Config.Opcodes) (i : Instr) : (encodeWith c i).length ≤ 3 := by
  cases i <;> simp [encodeWith, operandBytes]

end Sys2Proof
end

