-- ==== Sys2Proof/Laws/Memory.lean ====
section
/-! SUPPORT. The memory as data: what a byte reads as after a store, and that every operation keeps the canonical form. -/

namespace Sys2Proof.Machine

@[simp] theorem memSize_eq : Config.memSize = 256 := rfl

theorem byteAt_filter_self (m : Memory) (a : Nat) :
    Memory.byteAt (m.filter (fun c => c.1 != a)) a = Memory.unlisted := by
  induction m with
  | nil => rfl
  | cons c m ih =>
    obtain ⟨b, w⟩ := c
    by_cases h : b = a
    · simpa [List.filter_cons, h] using ih
    · simpa [List.filter_cons, h, Memory.byteAt] using ih

theorem byteAt_filter_other (m : Memory) {a b : Nat} (h : b ≠ a) :
    Memory.byteAt (m.filter (fun c => c.1 != a)) b = m.byteAt b := by
  induction m with
  | nil => rfl
  | cons c m ih =>
    obtain ⟨d, w⟩ := c
    by_cases hd : d = a
    · have : a ≠ b := fun e => h e.symm
      simpa [List.filter_cons, hd, Memory.byteAt, this] using ih
    · simp [hd, Memory.byteAt, ih]

theorem byteAt_insertCell (m : Memory) (a : Nat) (v : Byte) (b : Nat)
    (ha : ∀ c ∈ m, c.1 ≠ a) : (Memory.insertCell a v m).byteAt b = if b = a then v else m.byteAt b := by
  induction m with
  | nil => simp only [Memory.insertCell, Memory.byteAt, eq_comm]
  | cons c m ih =>
    obtain ⟨d, w⟩ := c
    have hd : d ≠ a := ha (d, w) (by simp)
    have ih := ih (fun c hc => ha c (by simp [hc]))
    by_cases hlt : a < d
    · simp only [Memory.insertCell, hlt, if_true, Memory.byteAt, eq_comm]
    · simp only [Memory.insertCell, hlt, if_false, Memory.byteAt, ih]
      by_cases hb : d = b
      · subst hb; simp [hd]
      · simp [hb]

theorem byteAt_setByte (m : Memory) (a : Nat) (v : Byte) (b : Nat) :
    (m.setByte a v).byteAt b = if b = a then v else m.byteAt b := by
  have hne : ∀ c ∈ m.filter (fun c => c.1 != a), c.1 ≠ a := by
    intro c hc; simpa using (List.mem_filter.mp hc).2
  unfold Memory.setByte
  split
  · rename_i hv
    by_cases hb : b = a
    · subst hb; simp [byteAt_filter_self, hv]
    · simp [byteAt_filter_other m hb, hb]
  · rw [byteAt_insertCell _ _ _ _ hne]
    by_cases hb : b = a
    · simp [hb]
    · simp [byteAt_filter_other m hb, hb]

theorem mem_insertCell {m : Memory} {a : Nat} {v : Byte} {c : Host.Cell} :
    c ∈ Memory.insertCell a v m ↔ c = (a, v) ∨ c ∈ m := by
  induction m with
  | nil => simp [Memory.insertCell]
  | cons d m ih =>
    obtain ⟨b, w⟩ := d
    by_cases h : a < b
    · simp [Memory.insertCell, h]
    · simp only [Memory.insertCell, h, if_false, List.mem_cons, ih]
      tauto

theorem pairwise_insertCell {m : Memory} {a : Nat} (v : Byte) (hm : m.Pairwise (fun c d => c.1 < d.1))
    (ha : ∀ c ∈ m, c.1 ≠ a) : (Memory.insertCell a v m).Pairwise (fun c d => c.1 < d.1) := by
  induction m with
  | nil => simp [Memory.insertCell]
  | cons d m ih =>
    obtain ⟨b, w⟩ := d
    obtain ⟨hb, hm⟩ := List.pairwise_cons.mp hm
    have hne : b ≠ a := ha (b, w) (by simp)
    by_cases h : a < b
    · simp only [Memory.insertCell, h, if_true]
      refine List.pairwise_cons.mpr ⟨fun c hc => ?_, List.pairwise_cons.mpr ⟨hb, hm⟩⟩
      rcases List.mem_cons.mp hc with rfl | hc
      · exact h
      · exact lt_trans h (hb c hc)
    · simp only [Memory.insertCell, h, if_false]
      refine List.pairwise_cons.mpr ⟨fun c hc => ?_, ih hm (fun c hc => ha c (by simp [hc]))⟩
      rcases mem_insertCell.mp hc with rfl | hc
      · show b < a; omega
      · exact hb c hc

theorem setByte_wf {m : Memory} {a : Nat} (v : Byte) (hm : m.wf) (ha : a < Config.memSize) : (m.setByte a v).wf := by
  obtain ⟨hp, hc⟩ := hm
  have hp' : (m.filter (fun c => c.1 != a)).Pairwise (fun c d => c.1 < d.1) := hp.filter _
  have hc' : ∀ c ∈ m.filter (fun c => c.1 != a), c.1 < Config.memSize ∧ c.2 ≠ Memory.unlisted :=
    fun c h => hc c (List.mem_filter.mp h).1
  unfold Memory.setByte
  split
  · exact ⟨hp', hc'⟩
  · rename_i hv
    refine ⟨pairwise_insertCell v hp' (fun c h => by simpa using (List.mem_filter.mp h).2), fun c h => ?_⟩
    rcases mem_insertCell.mp h with rfl | h
    · exact ⟨ha, hv⟩
    · exact hc' c h

theorem placeBytes_wf (bs : List Byte) {m : Memory} (a : Nat) (hm : m.wf) : (m.placeBytes a bs).wf := by
  induction bs generalizing m a with
  | nil => exact hm
  | cons b bs ih =>
    apply ih
    split
    · exact setByte_wf b hm ‹_›
    · exact hm

/-- Bytes placed inside memory are read back in order, and nothing else has changed. -/
theorem byteAt_placeBytes (bs : List Byte) (m : Memory) {a : Nat} (h : a + bs.length ≤ 256) (b : Nat) :
    (m.placeBytes a bs).byteAt b = if hb : a ≤ b ∧ b < a + bs.length then bs[b - a] else m.byteAt b := by
  induction bs generalizing m a with
  | nil => rw [dif_neg (by simp)]; rfl
  | cons v bs ih =>
    simp only [List.length_cons] at h ⊢
    rw [Memory.placeBytes, if_pos (show a < 256 by omega), ih _ (by omega), byteAt_setByte]
    by_cases hba : b = a
    · subst hba; simp
    · by_cases hb : a + 1 ≤ b ∧ b < a + 1 + bs.length
      · have : b - a = (b - (a + 1)) + 1 := by omega
        rw [dif_pos hb, dif_pos (by omega)]
        simp [this]
      · rw [dif_neg hb, dif_neg (by omega), if_neg hba]

theorem reset_mem_wf : State.reset.mem.wf := by decide

end Sys2Proof.Machine
end

