-- ==== Sys2Proof/Laws/Word.lean ====
section
/-! SUPPORT. Narrowing to a byte. -/

namespace Sys2Proof

theorem trunc8_toNat (v : Int) : (trunc8 v).toNat = (v % 256).toNat := by
  simp [trunc8, BitVec.toNat_ofInt]

@[simp] theorem trunc8_byte (b : Byte) : trunc8 (b.toNat : Int) = b := by
  apply BitVec.eq_of_toNat_eq
  rw [trunc8_toNat]
  have := b.isLt
  omega

theorem trunc8_natCast (n : Nat) : trunc8 (n : Int) = BitVec.ofNat 8 n := by
  apply BitVec.eq_of_toNat_eq
  rw [trunc8_toNat, BitVec.toNat_ofNat]
  omega

@[simp] theorem trunc8_pred (b : Byte) : trunc8 ((b.toNat : Int) - 1) = b - 1 := by
  apply BitVec.eq_of_toNat_eq
  rw [trunc8_toNat, BitVec.toNat_sub]
  have := b.isLt
  simp
  omega

@[simp] theorem trunc8_succ (b : Byte) : trunc8 ((b.toNat : Int) + 1) = b + 1 := by
  apply BitVec.eq_of_toNat_eq
  rw [trunc8_toNat, BitVec.toNat_add]
  simp
  omega

end Sys2Proof
end

