-- ==== Sys2Proof/Laws/State.lean ====
section
/-! SUPPORT. One lemma per field per update of State, so that no proof unfolds a record update. -/

namespace Sys2Proof.Machine

/-! ### setReg -/

@[simp] theorem setReg_pc (s : State) (i : RegIndex) (v : Int) : (s.setReg i v).pc = s.pc := rfl
@[simp] theorem setReg_flag (s : State) (i : RegIndex) (v : Int) : (s.setReg i v).flag = s.flag := rfl
@[simp] theorem setReg_status (s : State) (i : RegIndex) (v : Int) : (s.setReg i v).status = s.status := rfl
@[simp] theorem setReg_fault (s : State) (i : RegIndex) (v : Int) : (s.setReg i v).fault = s.fault := rfl
@[simp] theorem setReg_mem (s : State) (i : RegIndex) (v : Int) : (s.setReg i v).mem = s.mem := rfl
@[simp] theorem setReg_out (s : State) (i : RegIndex) (v : Int) : (s.setReg i v).out = s.out := rfl
@[simp] theorem setReg_memAt (s : State) (i : RegIndex) (v : Int) (x : Nat) : (s.setReg i v).memAt x = s.memAt x := rfl
@[simp] theorem setReg_reg (s : State) (i : RegIndex) (v : Int) (j : RegIndex) :
    (s.setReg i v).reg j = if j = i then trunc8 v else s.reg j := by
  have h : (i.val = j.val) ↔ (j = i) := by rw [eq_comm, Fin.val_inj]
  simp [State.setReg, State.reg, Vector.getElem_set, h]

/-! ### setPc -/

@[simp] theorem setPc_flag (s : State) (p : Nat) : (s.setPc p).flag = s.flag := rfl
@[simp] theorem setPc_status (s : State) (p : Nat) : (s.setPc p).status = s.status := rfl
@[simp] theorem setPc_fault (s : State) (p : Nat) : (s.setPc p).fault = s.fault := rfl
@[simp] theorem setPc_mem (s : State) (p : Nat) : (s.setPc p).mem = s.mem := rfl
@[simp] theorem setPc_out (s : State) (p : Nat) : (s.setPc p).out = s.out := rfl
@[simp] theorem setPc_reg (s : State) (p : Nat) (j : RegIndex) : (s.setPc p).reg j = s.reg j := rfl
@[simp] theorem setPc_memAt (s : State) (p : Nat) (x : Nat) : (s.setPc p).memAt x = s.memAt x := rfl
@[simp] theorem setPc_pc (s : State) (p : Nat) : (s.setPc p).pc = p := rfl

/-! ### setFlag -/

@[simp] theorem setFlag_pc (s : State) (b : Bool) : (s.setFlag b).pc = s.pc := rfl
@[simp] theorem setFlag_status (s : State) (b : Bool) : (s.setFlag b).status = s.status := rfl
@[simp] theorem setFlag_fault (s : State) (b : Bool) : (s.setFlag b).fault = s.fault := rfl
@[simp] theorem setFlag_mem (s : State) (b : Bool) : (s.setFlag b).mem = s.mem := rfl
@[simp] theorem setFlag_out (s : State) (b : Bool) : (s.setFlag b).out = s.out := rfl
@[simp] theorem setFlag_reg (s : State) (b : Bool) (j : RegIndex) : (s.setFlag b).reg j = s.reg j := rfl
@[simp] theorem setFlag_memAt (s : State) (b : Bool) (x : Nat) : (s.setFlag b).memAt x = s.memAt x := rfl
@[simp] theorem setFlag_flag (s : State) (b : Bool) : (s.setFlag b).flag = b := rfl

/-! ### halt -/

@[simp] theorem halt_pc (s : State) : s.halt.pc = s.pc := rfl
@[simp] theorem halt_flag (s : State) : s.halt.flag = s.flag := rfl
@[simp] theorem halt_fault (s : State) : s.halt.fault = s.fault := rfl
@[simp] theorem halt_mem (s : State) : s.halt.mem = s.mem := rfl
@[simp] theorem halt_out (s : State) : s.halt.out = s.out := rfl
@[simp] theorem halt_reg (s : State) (j : RegIndex) : s.halt.reg j = s.reg j := rfl
@[simp] theorem halt_memAt (s : State) (x : Nat) : s.halt.memAt x = s.memAt x := rfl
@[simp] theorem halt_status (s : State) : s.halt.status = .halted := rfl

/-! ### emit -/

@[simp] theorem emit_pc (s : State) (v : Byte) : (s.emit v).pc = s.pc := rfl
@[simp] theorem emit_flag (s : State) (v : Byte) : (s.emit v).flag = s.flag := rfl
@[simp] theorem emit_status (s : State) (v : Byte) : (s.emit v).status = s.status := rfl
@[simp] theorem emit_fault (s : State) (v : Byte) : (s.emit v).fault = s.fault := rfl
@[simp] theorem emit_mem (s : State) (v : Byte) : (s.emit v).mem = s.mem := rfl
@[simp] theorem emit_reg (s : State) (v : Byte) (j : RegIndex) : (s.emit v).reg j = s.reg j := rfl
@[simp] theorem emit_memAt (s : State) (v : Byte) (x : Nat) : (s.emit v).memAt x = s.memAt x := rfl
@[simp] theorem emit_out (s : State) (v : Byte) : (s.emit v).out = s.out ++ [v] := rfl

/-! ### putByte -/

@[simp] theorem putByte_pc (s : State) (a : Nat) (v : Byte) : (s.putByte a v).pc = s.pc := rfl
@[simp] theorem putByte_flag (s : State) (a : Nat) (v : Byte) : (s.putByte a v).flag = s.flag := rfl
@[simp] theorem putByte_status (s : State) (a : Nat) (v : Byte) : (s.putByte a v).status = s.status := rfl
@[simp] theorem putByte_fault (s : State) (a : Nat) (v : Byte) : (s.putByte a v).fault = s.fault := rfl
@[simp] theorem putByte_out (s : State) (a : Nat) (v : Byte) : (s.putByte a v).out = s.out := rfl
@[simp] theorem putByte_reg (s : State) (a : Nat) (v : Byte) (j : RegIndex) : (s.putByte a v).reg j = s.reg j := rfl
@[simp] theorem putByte_mem (s : State) (a : Nat) (v : Byte) : (s.putByte a v).mem = s.mem.setByte a v := rfl
@[simp] theorem putByte_memAt (s : State) (a : Nat) (v : Byte) (x : Nat) :
    (s.putByte a v).memAt x = if x = a then v else s.memAt x := byteAt_setByte s.mem a v x

/-! ### decSp -/

@[simp] theorem decSp_pc (s : State) : s.decSp.pc = s.pc := rfl
@[simp] theorem decSp_flag (s : State) : s.decSp.flag = s.flag := rfl
@[simp] theorem decSp_status (s : State) : s.decSp.status = s.status := rfl
@[simp] theorem decSp_fault (s : State) : s.decSp.fault = s.fault := rfl
@[simp] theorem decSp_mem (s : State) : s.decSp.mem = s.mem := rfl
@[simp] theorem decSp_out (s : State) : s.decSp.out = s.out := rfl
@[simp] theorem decSp_memAt (s : State) (x : Nat) : s.decSp.memAt x = s.memAt x := rfl
@[simp] theorem decSp_reg (s : State) (j : RegIndex) :
    s.decSp.reg j = if j = sp then s.reg sp - 1 else s.reg j := by
  simp [State.decSp]

/-! ### incSp -/

@[simp] theorem incSp_pc (s : State) : s.incSp.pc = s.pc := rfl
@[simp] theorem incSp_flag (s : State) : s.incSp.flag = s.flag := rfl
@[simp] theorem incSp_status (s : State) : s.incSp.status = s.status := rfl
@[simp] theorem incSp_fault (s : State) : s.incSp.fault = s.fault := rfl
@[simp] theorem incSp_mem (s : State) : s.incSp.mem = s.mem := rfl
@[simp] theorem incSp_out (s : State) : s.incSp.out = s.out := rfl
@[simp] theorem incSp_memAt (s : State) (x : Nat) : s.incSp.memAt x = s.memAt x := rfl
@[simp] theorem incSp_reg (s : State) (j : RegIndex) :
    s.incSp.reg j = if j = sp then s.reg sp + 1 else s.reg j := by
  simp [State.incSp]

/-! ### enterFault -/

@[simp] theorem enterFault_pc (s : State) (c : Cause) : (s.enterFault c).pc = s.pc := rfl
@[simp] theorem enterFault_flag (s : State) (c : Cause) : (s.enterFault c).flag = s.flag := rfl
@[simp] theorem enterFault_mem (s : State) (c : Cause) : (s.enterFault c).mem = s.mem := rfl
@[simp] theorem enterFault_out (s : State) (c : Cause) : (s.enterFault c).out = s.out := rfl
@[simp] theorem enterFault_reg (s : State) (c : Cause) (j : RegIndex) : (s.enterFault c).reg j = s.reg j := rfl
@[simp] theorem enterFault_memAt (s : State) (c : Cause) (x : Nat) : (s.enterFault c).memAt x = s.memAt x := rfl
@[simp] theorem enterFault_status (s : State) (c : Cause) : (s.enterFault c).status = .faulted := rfl
@[simp] theorem enterFault_fault (s : State) (c : Cause) :
    (s.enterFault c).fault = some ⟨c.kind, s.fetchedOpcode, s.pc, c.info⟩ := rfl

/-! ### placeAtPc -/

@[simp] theorem placeAtPc_pc (s : State) (bs : List Byte) : (s.placeAtPc bs).pc = s.pc := rfl
@[simp] theorem placeAtPc_flag (s : State) (bs : List Byte) : (s.placeAtPc bs).flag = s.flag := rfl
@[simp] theorem placeAtPc_status (s : State) (bs : List Byte) : (s.placeAtPc bs).status = s.status := rfl
@[simp] theorem placeAtPc_fault (s : State) (bs : List Byte) : (s.placeAtPc bs).fault = s.fault := rfl
@[simp] theorem placeAtPc_out (s : State) (bs : List Byte) : (s.placeAtPc bs).out = s.out := rfl
@[simp] theorem placeAtPc_reg (s : State) (bs : List Byte) (j : RegIndex) : (s.placeAtPc bs).reg j = s.reg j := rfl
@[simp] theorem placeAtPc_mem (s : State) (bs : List Byte) : (s.placeAtPc bs).mem = s.mem.placeBytes s.pc bs := rfl

/-! ### load -/

@[simp] theorem load_pc (s : State) (bs : List Byte) : (s.load bs).pc = s.pc := rfl
@[simp] theorem load_flag (s : State) (bs : List Byte) : (s.load bs).flag = s.flag := rfl
@[simp] theorem load_status (s : State) (bs : List Byte) : (s.load bs).status = s.status := rfl
@[simp] theorem load_fault (s : State) (bs : List Byte) : (s.load bs).fault = s.fault := rfl
@[simp] theorem load_out (s : State) (bs : List Byte) : (s.load bs).out = s.out := rfl
@[simp] theorem load_reg (s : State) (bs : List Byte) (j : RegIndex) : (s.load bs).reg j = s.reg j := rfl
@[simp] theorem load_mem (s : State) (bs : List Byte) : (s.load bs).mem = s.mem.placeBytes Config.loadBase bs := rfl

end Sys2Proof.Machine
end

