-- ==== Sys2Proof/Laws/Ops.lean ====
section
/-! SUPPORT. One lemma for each shared operation, saying once everything it can do. -/

namespace Sys2Proof.Machine

theorem memRead_inside {s : State} {a : Nat} (h : a ≤ 255) : s.memRead a = .ok (s.memAt a) := by
  simp [State.memRead, Nat.lt_succ_of_le h]

theorem memRead_outside {s : State} {a : Nat} (h : 255 < a) : s.memRead a = .error ⟨.addressFault, some a⟩ := by
  simp [State.memRead, show ¬ a < 256 by omega]

theorem memWrite_inside {s : State} {a : Nat} {v : Int} (h : a ≤ 255) :
    s.memWrite a v = .ok (s.putByte a (trunc8 v)) := by
  simp [State.memWrite, Nat.lt_succ_of_le h]

theorem memWrite_outside {s : State} {a : Nat} {v : Int} (h : 255 < a) :
    s.memWrite a v = .error ⟨.addressFault, some a⟩ := by
  simp [State.memWrite, show ¬ a < 256 by omega]

/-- A stack read never faults: the address is an 8-bit value (spec/20_memory.md R45). -/
theorem readTop_eq (s : State) : s.readTop = .ok (s.memAt (s.reg sp).toNat) :=
  memRead_inside (Nat.le_of_lt_succ (s.reg sp).isLt)

/-- A stack write never faults (spec/20_memory.md R45). -/
theorem writeTop_eq (s : State) (v : Int) : s.writeTop v = .ok (s.putByte (s.reg sp).toNat (trunc8 v)) :=
  memWrite_inside (Nat.le_of_lt_succ (s.reg sp).isLt)

theorem fetchedOpcode_inside {s : State} (h : s.pc ≤ 255) : s.fetchedOpcode = some (s.memAt s.pc) := by
  simp [State.fetchedOpcode, memRead_inside h]

theorem fetchedOpcode_outside {s : State} (h : 255 < s.pc) : s.fetchedOpcode = none := by
  simp [State.fetchedOpcode, memRead_outside h]

@[simp] theorem finish_ok (s t : State) : s.finish (.ok t) = .next t := rfl

@[simp] theorem finish_error (s : State) (c : Cause) : s.finish (.error c) = .next (s.enterFault c) := rfl

theorem regIdx_named {b : Byte} {i : RegIndex} (h : b.toNat = i.val) : regIdx b = .ok i := by
  simp [regIdx, h]

theorem regIdx_bad {b : Byte} (h : 7 < b.toNat) : regIdx b = .error ⟨.registerIndexFault, some b.toNat⟩ := by
  simp [regIdx, show ¬ b.toNat < 8 by omega]

/-- Every byte either names one register or is bad. -/
theorem regByte_cases (b : Byte) : (∃ i : RegIndex, b.toNat = i.val) ∨ 7 < b.toNat := by
  by_cases h : b.toNat < 8
  · exact .inl ⟨⟨b.toNat, h⟩, rfl⟩
  · exact .inr (by omega)

theorem regIdx2_named {a b : Byte} {i j : RegIndex} (ha : a.toNat = i.val) (hb : b.toNat = j.val) :
    regIdx2 a b = .ok (i, j) := by
  simp [regIdx2, regIdx_named ha, regIdx_named hb, bind, Except.bind, pure, Except.pure]

theorem regIdx2_bad_first {a b : Byte} (ha : 7 < a.toNat) :
    regIdx2 a b = .error ⟨.registerIndexFault, some a.toNat⟩ := by
  simp [regIdx2, regIdx_bad ha, bind, Except.bind]

theorem regIdx2_bad_second {a b : Byte} {i : RegIndex} (ha : a.toNat = i.val) (hb : 7 < b.toNat) :
    regIdx2 a b = .error ⟨.registerIndexFault, some b.toNat⟩ := by
  simp [regIdx2, regIdx_named ha, regIdx_bad hb, bind, Except.bind]

end Sys2Proof.Machine
end

