-- ==== Sys2Proof/Laws/Exec.lean ====
section
/-! SUPPORT. What each meaning answers, one lemma per way it can end; `exec` itself is never unfolded after this file. -/

namespace Sys2Proof.Machine

variable {s : State} {r imm ra rb : Byte} {i j : RegIndex}

theorem exec_ldi (h : r.toNat = i.val) :
    exec (.ldi r imm) s = .next ((s.setReg i imm.toNat).setPc (s.pc + 3)) := by
  simp [exec, execLdi, regIdx_named h, bind, Except.bind, pure, Except.pure]

theorem exec_prn (h : r.toNat = i.val) :
    exec (.prn r) s = .next ((s.emit (s.reg i)).setPc (s.pc + 2)) := by
  simp [exec, execPrn, regIdx_named h, bind, Except.bind, pure, Except.pure]

theorem exec_hlt : exec .hlt s = .next s.halt := rfl

theorem exec_add (ha : ra.toNat = i.val) (hb : rb.toNat = j.val) :
    exec (.add ra rb) s = .next ((s.setReg i ((s.reg i).toNat + (s.reg j).toNat)).setPc (s.pc + 3)) := by
  simp [exec, execAdd, State.aluInstr, regIdx2_named ha hb, alu, State.applyAlu, State.setReg, bind, Except.bind, pure, Except.pure]

theorem exec_mul (ha : ra.toNat = i.val) (hb : rb.toNat = j.val) :
    exec (.mul ra rb) s = .next ((s.setReg i ((s.reg i).toNat * (s.reg j).toNat)).setPc (s.pc + 3)) := by
  simp [exec, execMul, State.aluInstr, regIdx2_named ha hb, alu, State.applyAlu, State.setReg, bind, Except.bind, pure, Except.pure]

theorem exec_cmp (ha : ra.toNat = i.val) (hb : rb.toNat = j.val) :
    exec (.cmp ra rb) s =
      .next ((s.setFlag (flagAfterCompare s.flag (s.reg i == s.reg j))).setPc (s.pc + 3)) := by
  simp [exec, execCmp, State.aluInstr, regIdx2_named ha hb, alu, State.applyAlu, bind, Except.bind, pure, Except.pure]

theorem exec_push (h : r.toNat = i.val) :
    exec (.push r) s =
      .next ((s.decSp.putByte (s.decSp.reg sp).toNat (s.decSp.reg i)).setPc (s.pc + 2)) := by
  simp only [exec, execPush, regIdx_named h, writeTop_eq, bind, Except.bind, pure, Except.pure, finish_ok, trunc8_byte]

theorem exec_pop (h : r.toNat = i.val) :
    exec (.pop r) s =
      .next ((s.setReg i (s.memAt (s.reg sp).toNat).toNat).incSp.setPc (s.pc + 2)) := by
  simp only [exec, execPop, regIdx_named h, readTop_eq, bind, Except.bind, pure, Except.pure, finish_ok]

theorem exec_call (h : r.toNat = i.val) :
    exec (.call r) s =
      .next ((s.decSp.putByte (s.decSp.reg sp).toNat (BitVec.ofNat 8 (s.pc + 2))).setPc (s.decSp.reg i).toNat) := by
  have : trunc8 ((s.pc : Int) + 2) = BitVec.ofNat 8 (s.pc + 2) := by exact_mod_cast trunc8_natCast (s.pc + 2)
  simp only [exec, execCall, regIdx_named h, writeTop_eq, bind, Except.bind, pure, Except.pure, finish_ok, this, putByte_reg]

theorem exec_ret (hp : s.pc + 1 ≤ 255) (h : (s.memAt (s.pc + 1)).toNat = i.val) :
    exec .ret s =
      .next ((s.setReg i (s.memAt (s.reg sp).toNat).toNat).incSp.setPc (s.memAt (s.reg sp).toNat).toNat) := by
  simp only [exec, execRet, peekRegIdx, memRead_inside hp, regIdx_named h, readTop_eq, bind, Except.bind, pure, Except.pure,
    finish_ok]

theorem exec_jmp (h : r.toNat = i.val) : exec (.jmp r) s = .next (s.setPc (s.reg i).toNat) := by
  simp [exec, execJmp, regIdx_named h, bind, Except.bind, pure, Except.pure]

theorem exec_jeq (h : r.toNat = i.val) :
    exec (.jeq r) s = .next (s.setPc (if s.flag then (s.reg i).toNat else s.pc + 2)) := by
  cases hf : s.flag <;>
    simp [exec, execJeq, State.branchIf, jeqTaken, regIdx_named h, hf, bind, Except.bind, pure, Except.pure]

theorem exec_jne (h : r.toNat = i.val) :
    exec (.jne r) s = .next (s.setPc (if s.flag then s.pc + 2 else (s.reg i).toNat)) := by
  cases hf : s.flag <;>
    simp [exec, execJne, State.branchIf, jneTaken, regIdx_named h, hf, bind, Except.bind, pure, Except.pure]

/-! ## A bad register byte -/

theorem exec_ldi_bad (h : 7 < r.toNat) :
    exec (.ldi r imm) s = .next (s.enterFault ⟨.registerIndexFault, some r.toNat⟩) := by
  simp [exec, execLdi, regIdx_bad h, bind, Except.bind]

theorem exec_prn_bad (h : 7 < r.toNat) :
    exec (.prn r) s = .next (s.enterFault ⟨.registerIndexFault, some r.toNat⟩) := by
  simp [exec, execPrn, regIdx_bad h, bind, Except.bind]

theorem exec_push_bad (h : 7 < r.toNat) :
    exec (.push r) s = .next (s.enterFault ⟨.registerIndexFault, some r.toNat⟩) := by
  simp [exec, execPush, regIdx_bad h, bind, Except.bind]

theorem exec_pop_bad (h : 7 < r.toNat) :
    exec (.pop r) s = .next (s.enterFault ⟨.registerIndexFault, some r.toNat⟩) := by
  simp [exec, execPop, regIdx_bad h, bind, Except.bind]

theorem exec_call_bad (h : 7 < r.toNat) :
    exec (.call r) s = .next (s.enterFault ⟨.registerIndexFault, some r.toNat⟩) := by
  simp [exec, execCall, regIdx_bad h, bind, Except.bind]

theorem exec_jmp_bad (h : 7 < r.toNat) :
    exec (.jmp r) s = .next (s.enterFault ⟨.registerIndexFault, some r.toNat⟩) := by
  simp [exec, execJmp, regIdx_bad h, bind, Except.bind]

theorem exec_jeq_bad (h : 7 < r.toNat) :
    exec (.jeq r) s = .next (s.enterFault ⟨.registerIndexFault, some r.toNat⟩) := by
  simp [exec, execJeq, State.branchIf, regIdx_bad h, bind, Except.bind]

theorem exec_jne_bad (h : 7 < r.toNat) :
    exec (.jne r) s = .next (s.enterFault ⟨.registerIndexFault, some r.toNat⟩) := by
  simp [exec, execJne, State.branchIf, regIdx_bad h, bind, Except.bind]

/-- The three ALU instructions on a bad pair of register bytes: the cause `regIdx2` gives. -/
theorem aluInstr_bad {c : Cause} {k : AluKind} (h : regIdx2 ra rb = .error c) : s.aluInstr k ra rb = .error c := by
  simp [State.aluInstr, h, bind, Except.bind]

theorem exec_add_bad {c : Cause} (h : regIdx2 ra rb = .error c) : exec (.add ra rb) s = .next (s.enterFault c) := by
  simp [exec, execAdd, aluInstr_bad h]

theorem exec_mul_bad {c : Cause} (h : regIdx2 ra rb = .error c) : exec (.mul ra rb) s = .next (s.enterFault c) := by
  simp [exec, execMul, aluInstr_bad h]

theorem exec_cmp_bad {c : Cause} (h : regIdx2 ra rb = .error c) : exec (.cmp ra rb) s = .next (s.enterFault c) := by
  simp [exec, execCmp, aluInstr_bad h]

theorem exec_ret_bad (hp : s.pc + 1 ≤ 255) (h : 7 < (s.memAt (s.pc + 1)).toNat) :
    exec .ret s = .next (s.enterFault ⟨.registerIndexFault, some (s.memAt (s.pc + 1)).toNat⟩) := by
  simp [exec, execRet, peekRegIdx, memRead_inside hp, regIdx_bad h, bind, Except.bind]

theorem exec_ret_past_end (hp : 255 < s.pc + 1) :
    exec .ret s = .next (s.enterFault ⟨.addressFault, some (s.pc + 1)⟩) := by
  simp [exec, execRet, peekRegIdx, memRead_outside hp, bind, Except.bind]

end Sys2Proof.Machine
end

