-- ==== Sys2Proof/Laws/Loop.lean ====
section
/-! SUPPORT. What the loop fetches, and what one step is. -/

namespace Sys2Proof.Machine

theorem fetchWindow_three {s : State} (h : s.pc ≤ 253) :
    s.fetchWindow = [s.memAt s.pc, s.memAt (s.pc + 1), s.memAt (s.pc + 2)] := by
  simp [State.fetchWindow, show s.pc < 256 by omega, show s.pc + 1 < 256 by omega, show s.pc + 2 < 256 by omega]

theorem fetchWindow_two {s : State} (h : s.pc = 254) : s.fetchWindow = [s.memAt 254, s.memAt 255] := by
  simp [State.fetchWindow, Config.memSize, h]

theorem fetchWindow_one {s : State} (h : s.pc = 255) : s.fetchWindow = [s.memAt 255] := by
  simp [State.fetchWindow, Config.memSize, h]

theorem fetchWindow_none {s : State} (h : 255 < s.pc) : s.fetchWindow = [] := by
  simp [State.fetchWindow, show ¬ s.pc < 256 by omega, show ¬ s.pc + 1 < 256 by omega, show ¬ s.pc + 2 < 256 by omega]

/-- The window begins with the opcode whenever there is one. -/
theorem fetchWindow_head {s : State} (h : s.pc ≤ 255) : ∃ rest, s.fetchWindow = s.memAt s.pc :: rest := by
  simp [State.fetchWindow, List.filter_cons, show s.pc < 256 by omega]

/-- The bytes after the opcode, when there are at least two. -/
theorem fetchWindow_tail {s : State} (h : s.pc ≤ 254) :
    ∃ rest, s.fetchWindow = s.memAt s.pc :: s.memAt (s.pc + 1) :: rest := by
  rcases Nat.lt_or_ge s.pc 254 with h' | h'
  · exact ⟨_, fetchWindow_three (by omega)⟩
  · have e : s.pc = 254 := by omega
    exact ⟨[], by rw [fetchWindow_two e, e]⟩

/-- Bytes that stand in memory at the pc are what the window begins with. -/
theorem fetchWindow_prefix {s : State} {bs : List Byte} (hl : bs.length ≤ 3)
    (h : ∀ k (hk : k < bs.length), s.pc + k ≤ 255 ∧ s.memAt (s.pc + k) = bs[k]) : ∃ rest, s.fetchWindow = bs ++ rest := by
  match bs, hl with
  | [], _ => exact ⟨_, rfl⟩
  | [b0], _ =>
    obtain ⟨h0, e0⟩ := h 0 (by simp)
    have e0 : s.memAt s.pc = b0 := e0
    subst e0
    exact fetchWindow_head h0
  | [b0, b1], _ =>
    have e0 : s.memAt s.pc = b0 := (h 0 (by simp)).2
    obtain ⟨h1, e1⟩ := h 1 (by simp)
    have e1 : s.memAt (s.pc + 1) = b1 := e1
    subst e0 e1
    exact fetchWindow_tail (by omega)
  | [b0, b1, b2], _ =>
    have e0 : s.memAt s.pc = b0 := (h 0 (by simp)).2
    have e1 : s.memAt (s.pc + 1) = b1 := (h 1 (by simp)).2
    obtain ⟨h2, e2⟩ := h 2 (by simp)
    have e2 : s.memAt (s.pc + 2) = b2 := e2
    subst e0 e1 e2
    exact ⟨[], fetchWindow_three (by omega)⟩

theorem stepWith_halted {c : Config.Opcodes} {s : State} (h : s.status = .halted) :
    stepWith c s = .fault .haltedHasNoStep := by
  simp [stepWith, h]

theorem stepWith_faulted {c : Config.Opcodes} {s : State} (h : s.status = .faulted) :
    stepWith c s = .fault .faultedHasNoStep := by
  simp [stepWith, h]

theorem stepWith_runs {c : Config.Opcodes} {s : State} {i : Instr} (h : s.status = .running) (hd : s.fetchDecode c = .ok i) :
    stepWith c s = exec i s := by
  simp [stepWith, h, hd]

theorem stepWith_faults {c : Config.Opcodes} {s : State} {r : Cause} (h : s.status = .running)
    (hd : s.fetchDecode c = .error r) : stepWith c s = .next (s.enterFault r) := by
  simp [stepWith, h, hd]

/-- Only a RUNNING state has a next state. -/
theorem running_of_stepWith {c : Config.Opcodes} {s t : State} (h : stepWith c s = .next t) : s.status = .running := by
  cases hs : s.status with
  | running => rfl
  | halted => simp [stepWith_halted hs] at h
  | faulted => simp [stepWith_faulted hs] at h

theorem step_eq (s : State) : step s = stepWith defaultOpcodes s := rfl

end Sys2Proof.Machine
end

