-- ==== Sys2Proof/Laws/PerInstr.lean ====
section
/-! SUPPORT. Statements made per instruction, about the instruction as syntax. -/

namespace Sys2Proof.Laws

/-- The bytes of an instruction are as many as its format has (spec/30_encoding.md R50 to R53, R60). -/
def EncodedLength.Statement (i : Instr) : Prop :=
  ∀ c, (encodeWith c i).length = formatLength (formatOf (kindOf i))

theorem EncodedLength.ldi (r imm : Byte) : EncodedLength.Statement (.ldi r imm) := fun _ => rfl
theorem EncodedLength.prn (r : Byte) : EncodedLength.Statement (.prn r) := fun _ => rfl
theorem EncodedLength.hlt : EncodedLength.Statement .hlt := fun _ => rfl
theorem EncodedLength.mul (ra rb : Byte) : EncodedLength.Statement (.mul ra rb) := fun _ => rfl
theorem EncodedLength.add (ra rb : Byte) : EncodedLength.Statement (.add ra rb) := fun _ => rfl
theorem EncodedLength.push (r : Byte) : EncodedLength.Statement (.push r) := fun _ => rfl
theorem EncodedLength.pop (r : Byte) : EncodedLength.Statement (.pop r) := fun _ => rfl
theorem EncodedLength.call (r : Byte) : EncodedLength.Statement (.call r) := fun _ => rfl
theorem EncodedLength.ret : EncodedLength.Statement .ret := fun _ => rfl
theorem EncodedLength.cmp (ra rb : Byte) : EncodedLength.Statement (.cmp ra rb) := fun _ => rfl
theorem EncodedLength.jmp (r : Byte) : EncodedLength.Statement (.jmp r) := fun _ => rfl
theorem EncodedLength.jeq (r : Byte) : EncodedLength.Statement (.jeq r) := fun _ => rfl
theorem EncodedLength.jne (r : Byte) : EncodedLength.Statement (.jne r) := fun _ => rfl

end Sys2Proof.Laws
end

