-- ==== Sys2Proof/Laws/StepCases.lean ====
section
/-! SUPPORT. What one step can do, said once: it raises one of four causes, or it has the effect of the kind at the pc. -/

namespace Sys2Proof.Machine

/-- What a completed instruction of the kind makes of the state, its operands read from the bytes after the opcode. -/
def Effect (k : OpKind) (s t : State) : Prop :=
  let b1 := s.memAt (s.pc + 1)
  let b2 := s.memAt (s.pc + 2)
  let top := s.memAt (s.reg sp).toNat
  match k with
  | .ldi  => ∃ i : RegIndex, b1.toNat = i.val ∧ t = (s.setReg i b2.toNat).setPc (s.pc + 3)
  | .prn  => ∃ i : RegIndex, b1.toNat = i.val ∧ t = (s.emit (s.reg i)).setPc (s.pc + 2)
  | .hlt  => t = s.halt
  | .mul  => ∃ i j : RegIndex, b1.toNat = i.val ∧ b2.toNat = j.val ∧
      t = (s.setReg i ((s.reg i).toNat * (s.reg j).toNat)).setPc (s.pc + 3)
  | .add  => ∃ i j : RegIndex, b1.toNat = i.val ∧ b2.toNat = j.val ∧
      t = (s.setReg i ((s.reg i).toNat + (s.reg j).toNat)).setPc (s.pc + 3)
  | .push => ∃ i : RegIndex, b1.toNat = i.val ∧
      t = (s.decSp.putByte (s.decSp.reg sp).toNat (s.decSp.reg i)).setPc (s.pc + 2)
  | .pop  => ∃ i : RegIndex, b1.toNat = i.val ∧ t = (s.setReg i top.toNat).incSp.setPc (s.pc + 2)
  | .call => ∃ i : RegIndex, b1.toNat = i.val ∧
      t = (s.decSp.putByte (s.decSp.reg sp).toNat (BitVec.ofNat 8 (s.pc + 2))).setPc (s.decSp.reg i).toNat
  | .ret  => ∃ i : RegIndex, b1.toNat = i.val ∧ t = (s.setReg i top.toNat).incSp.setPc top.toNat
  | .cmp  => ∃ i j : RegIndex, b1.toNat = i.val ∧ b2.toNat = j.val ∧
      t = (s.setFlag (flagAfterCompare s.flag (s.reg i == s.reg j))).setPc (s.pc + 3)
  | .jmp  => ∃ i : RegIndex, b1.toNat = i.val ∧ t = s.setPc (s.reg i).toNat
  | .jeq  => ∃ i : RegIndex, b1.toNat = i.val ∧ t = s.setPc (if s.flag then (s.reg i).toNat else s.pc + 2)
  | .jne  => ∃ i : RegIndex, b1.toNat = i.val ∧ t = s.setPc (if s.flag then s.pc + 2 else (s.reg i).toNat)

/-- The opcode at the pc is of kind `k`, and the bytes an instruction of that kind reads are all in memory. -/
def Fetched (c : Config.Opcodes) (s : State) (k : OpKind) : Prop :=
  s.pc ≤ 255 ∧ lookup c (s.memAt s.pc) = some k ∧ s.pc + formatReads (formatOf k) ≤ 256

/-- When a step raises which cause, in phase order. -/
inductive Raises (c : Config.Opcodes) (s : State) : Cause → Prop
  | fetch (h : 255 < s.pc) : Raises c s ⟨.addressFault, some s.pc⟩
  | decode (h : s.pc ≤ 255) (hl : lookup c (s.memAt s.pc) = none) :
      Raises c s ⟨.unknownOpcode, some (s.memAt s.pc).toNat⟩
  | operand (k : OpKind) (h : s.pc ≤ 255) (hl : lookup c (s.memAt s.pc) = some k)
      (he : 256 < s.pc + formatReads (formatOf k)) : Raises c s ⟨.addressFault, some 256⟩
  | register (k : OpKind) (n : Nat) (h : Fetched c s k) (hb : firstBadRegByte k s = some n) :
      Raises c s ⟨.registerIndexFault, some n⟩

/-- The step's answer, by cases. -/
def StepIs (c : Config.Opcodes) (s : State) (o : Host.Outcome State Fault Refusal) : Prop :=
  (∃ z, Raises c s z ∧ o = .next (s.enterFault z)) ∨
  ∃ k t, Fetched c s k ∧ firstBadRegByte k s = none ∧ Effect k s t ∧ o = .next t

theorem badRegByte_named {b : Byte} {i : RegIndex} (h : b.toNat = i.val) : badRegByte b = none := by
  simp only [badRegByte, h, if_neg (show ¬ 7 < i.val by omega)]

theorem badRegByte_bad {b : Byte} (h : 7 < b.toNat) : badRegByte b = some b.toNat := if_pos h

/-- A bad byte is 8 to 255. -/
theorem badRegByte_range {b : Byte} {n : Nat} (h : badRegByte b = some n) : 8 ≤ n ∧ n ≤ 255 := by
  unfold badRegByte at h
  split at h
  · injection h with h
    omega
  · cases h

section
variable {c : Config.Opcodes} {s : State}

theorem oneReg_is {k : OpKind} {ins : Byte → Instr} {eff : RegIndex → State} (hF : Fetched c s k)
    (hb : firstBadRegByte k s = badRegByte (s.memAt (s.pc + 1)))
    (hbad : ∀ r, 7 < r.toNat → exec (ins r) s = .next (s.enterFault ⟨.registerIndexFault, some r.toNat⟩))
    (hok : ∀ (r : Byte) (i : RegIndex), r.toNat = i.val → exec (ins r) s = .next (eff i))
    (heff : ∀ i : RegIndex, (s.memAt (s.pc + 1)).toNat = i.val → Effect k s (eff i)) :
    StepIs c s (exec (ins (s.memAt (s.pc + 1))) s) := by
  rcases regByte_cases (s.memAt (s.pc + 1)) with ⟨i, hi⟩ | h
  · exact .inr ⟨k, _, hF, by rw [hb, badRegByte_named hi], heff i hi, hok _ i hi⟩
  · exact .inl ⟨_, .register k _ hF (by rw [hb, badRegByte_bad h]), hbad _ h⟩

theorem twoReg_is {k : OpKind} {ins : Byte → Byte → Instr} {eff : RegIndex → RegIndex → State} (hF : Fetched c s k)
    (hk : formatOf k = .f2rr)
    (hbad : ∀ r q z, regIdx2 r q = .error z → exec (ins r q) s = .next (s.enterFault z))
    (hok : ∀ (r q : Byte) (i j : RegIndex), r.toNat = i.val → q.toNat = j.val → exec (ins r q) s = .next (eff i j))
    (heff : ∀ i j : RegIndex, (s.memAt (s.pc + 1)).toNat = i.val → (s.memAt (s.pc + 2)).toNat = j.val →
      Effect k s (eff i j)) :
    StepIs c s (exec (ins (s.memAt (s.pc + 1)) (s.memAt (s.pc + 2))) s) := by
  rcases regByte_cases (s.memAt (s.pc + 1)) with ⟨i, hi⟩ | h
  · rcases regByte_cases (s.memAt (s.pc + 2)) with ⟨j, hj⟩ | h
    · exact .inr ⟨k, _, hF, by simp [firstBadRegByte, hk, badRegByte_named hi, badRegByte_named hj], heff i j hi hj, hok _ _ i j hi hj⟩
    · refine .inl ⟨_, .register k _ hF ?_, hbad _ _ _ (regIdx2_bad_second hi h)⟩
      simp [firstBadRegByte, hk, badRegByte_named hi, badRegByte_bad h]
  · exact .inl ⟨_, .register k _ hF (by simp [firstBadRegByte, hk, badRegByte_bad h]), hbad _ _ _ (regIdx2_bad_first h)⟩

theorem decode_two {k : OpKind} {f : Byte → Byte → Instr} (hr : s.status = .running) (h : s.pc ≤ 255)
    (hl : lookup c (s.memAt s.pc) = some k) (hk : ∀ bs, takeOperands k bs = takeTwo f bs) (hf : formatReads (formatOf k) = 3)
    (hx : Fetched c s k → StepIs c s (exec (f (s.memAt (s.pc + 1)) (s.memAt (s.pc + 2))) s)) :
    StepIs c s (stepWith c s) := by
  rcases Nat.lt_or_ge s.pc 254 with h' | h'
  · have : s.fetchDecode c = .ok (f (s.memAt (s.pc + 1)) (s.memAt (s.pc + 2))) := by
      simp [State.fetchDecode, fetchWindow_three (show s.pc ≤ 253 by omega), decodeWith, hl, hk, takeTwo]
    rw [stepWith_runs hr this]
    exact hx ⟨h, hl, by omega⟩
  · have hd : s.fetchDecode c = .error ⟨.addressFault, some 256⟩ := by
      rcases Nat.lt_or_ge s.pc 255 with h'' | h''
      · have e : s.pc = 254 := by omega
        simp [State.fetchDecode, fetchWindow_two e, decodeWith, ← e, hl, hk, takeTwo, rejectCause]
      · have e : s.pc = 255 := by omega
        simp [State.fetchDecode, fetchWindow_one e, decodeWith, ← e, hl, hk, takeTwo, rejectCause]
    exact .inl ⟨_, .operand k h hl (by omega), stepWith_faults hr hd⟩

theorem decode_one {k : OpKind} {f : Byte → Instr} (hr : s.status = .running) (h : s.pc ≤ 255)
    (hl : lookup c (s.memAt s.pc) = some k) (hk : ∀ bs, takeOperands k bs = takeOne f bs) (hf : formatReads (formatOf k) = 2)
    (hx : Fetched c s k → StepIs c s (exec (f (s.memAt (s.pc + 1))) s)) : StepIs c s (stepWith c s) := by
  rcases Nat.lt_or_ge s.pc 255 with h' | h'
  · obtain ⟨rest, hw⟩ := fetchWindow_tail (show s.pc ≤ 254 by omega)
    have : s.fetchDecode c = .ok (f (s.memAt (s.pc + 1))) := by
      simp [State.fetchDecode, hw, decodeWith, hl, hk, takeOne]
    rw [stepWith_runs hr this]
    exact hx ⟨h, hl, by omega⟩
  · have e : s.pc = 255 := by omega
    have hd : s.fetchDecode c = .error ⟨.addressFault, some 256⟩ := by
      simp [State.fetchDecode, fetchWindow_one e, decodeWith, ← e, hl, hk, takeOne, rejectCause]
    exact .inl ⟨_, .operand k h hl (by omega), stepWith_faults hr hd⟩

theorem decode_zero {k : OpKind} {i : Instr} (hr : s.status = .running) (h : s.pc ≤ 255)
    (hl : lookup c (s.memAt s.pc) = some k) (hk : ∀ bs, takeOperands k bs = .ok (i, bs)) : stepWith c s = exec i s := by
  obtain ⟨rest, hw⟩ := fetchWindow_head h
  exact stepWith_runs hr (by simp [State.fetchDecode, hw, decodeWith, hl, hk])

/-- A RUNNING state's step, by cases: the one place where the loop and the meanings are unfolded together. -/
theorem step_cases (c : Config.Opcodes) (hr : s.status = .running) : StepIs c s (stepWith c s) := by
  rcases Nat.lt_or_ge 255 s.pc with h | h
  · have hd : s.fetchDecode c = .error ⟨.addressFault, some s.pc⟩ := by
      simp [State.fetchDecode, fetchWindow_none h, decodeWith, rejectCause]
    exact .inl ⟨_, .fetch h, stepWith_faults hr hd⟩
  cases hl : lookup c (s.memAt s.pc) with
  | none =>
    obtain ⟨rest, hw⟩ := fetchWindow_head h
    have hd : s.fetchDecode c = .error ⟨.unknownOpcode, some (s.memAt s.pc).toNat⟩ := by
      simp [State.fetchDecode, hw, decodeWith, hl, rejectCause]
    exact .inl ⟨_, .decode h hl, stepWith_faults hr hd⟩
  | some k =>
    cases k with
    | ldi => exact decode_two hr h hl (fun _ => rfl) rfl fun hF =>
        oneReg_is (ins := fun r => .ldi r _) hF rfl (fun _ => exec_ldi_bad) (fun _ _ => exec_ldi) (fun i hi => ⟨i, hi, rfl⟩)
    | prn => exact decode_one hr h hl (fun _ => rfl) rfl fun hF =>
        oneReg_is hF rfl (fun _ => exec_prn_bad) (fun _ _ => exec_prn) (fun i hi => ⟨i, hi, rfl⟩)
    | hlt =>
      rw [decode_zero hr h hl (fun _ => rfl)]
      exact .inr ⟨.hlt, _, ⟨h, hl, by simp [formatOf, formatReads]; omega⟩, rfl, rfl, exec_hlt⟩
    | mul => exact decode_two hr h hl (fun _ => rfl) rfl fun hF =>
        twoReg_is hF rfl (fun _ _ _ => exec_mul_bad) (fun _ _ _ _ => exec_mul) (fun i j hi hj => ⟨i, j, hi, hj, rfl⟩)
    | add => exact decode_two hr h hl (fun _ => rfl) rfl fun hF =>
        twoReg_is hF rfl (fun _ _ _ => exec_add_bad) (fun _ _ _ _ => exec_add) (fun i j hi hj => ⟨i, j, hi, hj, rfl⟩)
    | push => exact decode_one hr h hl (fun _ => rfl) rfl fun hF =>
        oneReg_is hF rfl (fun _ => exec_push_bad) (fun _ _ => exec_push) (fun i hi => ⟨i, hi, rfl⟩)
    | pop => exact decode_one hr h hl (fun _ => rfl) rfl fun hF =>
        oneReg_is hF rfl (fun _ => exec_pop_bad) (fun _ _ => exec_pop) (fun i hi => ⟨i, hi, rfl⟩)
    | call => exact decode_one hr h hl (fun _ => rfl) rfl fun hF =>
        oneReg_is hF rfl (fun _ => exec_call_bad) (fun _ _ => exec_call) (fun i hi => ⟨i, hi, rfl⟩)
    | ret =>
      rw [decode_zero hr h hl (fun _ => rfl)]
      rcases Nat.lt_or_ge s.pc 255 with h' | h'
      · have hp : s.pc + 1 ≤ 255 := h'
        have hF : Fetched c s .ret := ⟨h, hl, by simp [formatOf, formatReads]; omega⟩
        rcases regByte_cases (s.memAt (s.pc + 1)) with ⟨i, hi⟩ | hb
        · exact .inr ⟨.ret, _, hF, badRegByte_named hi, ⟨i, hi, rfl⟩, exec_ret hp hi⟩
        · exact .inl ⟨_, .register .ret _ hF (badRegByte_bad hb), exec_ret_bad hp hb⟩
      · have e : s.pc = 255 := by omega
        refine .inl ⟨_, .operand .ret h hl (by simp [formatOf, formatReads]; omega), ?_⟩
        rw [exec_ret_past_end (by omega), e]
    | cmp => exact decode_two hr h hl (fun _ => rfl) rfl fun hF =>
        twoReg_is hF rfl (fun _ _ _ => exec_cmp_bad) (fun _ _ _ _ => exec_cmp) (fun i j hi hj => ⟨i, j, hi, hj, rfl⟩)
    | jmp => exact decode_one hr h hl (fun _ => rfl) rfl fun hF =>
        oneReg_is hF rfl (fun _ => exec_jmp_bad) (fun _ _ => exec_jmp) (fun i hi => ⟨i, hi, rfl⟩)
    | jeq => exact decode_one hr h hl (fun _ => rfl) rfl fun hF =>
        oneReg_is hF rfl (fun _ => exec_jeq_bad) (fun _ _ => exec_jeq) (fun i hi => ⟨i, hi, rfl⟩)
    | jne => exact decode_one hr h hl (fun _ => rfl) rfl fun hF =>
        oneReg_is hF rfl (fun _ => exec_jne_bad) (fun _ _ => exec_jne) (fun i hi => ⟨i, hi, rfl⟩)

end

end Sys2Proof.Machine
end

