-- ==== Sys2Proof/Laws/Run.lean ====
section
/-! SUPPORT. The induction over a run, packaged once. -/

namespace Sys2Proof.Machine

theorem run_zero {s t : State} (h : Host.Core.run Sys2Proof.core 0 s = .next t) : t = s := by
  injection h with h
  exact h.symm

/-- A run of `n + 1` steps is a step and then a run of `n`, for any machine of the host's interface. -/
theorem core_run_succ (M : Host.Core) {n : Nat} {s t : M.State} (h : Host.Core.run M (n + 1) s = .next t) :
    ∃ u, M.step s = .next u ∧ Host.Core.run M n u = .next t := by
  rw [Host.Core.run] at h
  split at h
  · exact ⟨_, ‹_›, h⟩
  · cases h
  · cases h

theorem run_succ {n : Nat} {s t : State} (h : Host.Core.run Sys2Proof.core (n + 1) s = .next t) :
    ∃ u, step s = .next u ∧ Host.Core.run Sys2Proof.core n u = .next t :=
  core_run_succ Sys2Proof.core h

/-- A relation that holds of every state with itself and is kept by putting a step before it holds along every run. -/
theorem run_induction {P : State → State → Prop} (hrefl : ∀ s, P s s)
    (hstep : ∀ s t u, step s = .next t → P t u → P s u) :
    ∀ (n : Nat) (s t : State), Host.Core.run Sys2Proof.core n s = .next t → P s t
  | 0, s, t, h => run_zero h ▸ hrefl s
  | n + 1, s, t, h => by
    obtain ⟨u, hs, hr⟩ := run_succ h
    exact hstep s u t hs (run_induction hrefl hstep n u t hr)

/-- A state that is not RUNNING is the end of its run (spec/40_fetch_decode_execute.md R79). -/
theorem run_ended {n : Nat} {s t : State} (hs : s.status ≠ .running)
    (h : Host.Core.run Sys2Proof.core n s = .next t) : t = s := by
  cases n with
  | zero => exact run_zero h
  | succ n =>
    obtain ⟨u, hu, -⟩ := run_succ h
    exact absurd (running_of_stepWith hu) hs

end Sys2Proof.Machine
end

