-- ==== Sys2Proof/Tests/Slice0.lean ====
section
/-! SUPPORT. The model's own tests. Expected results are taken from the vectors of spec/95_test_vectors.md (named by their ids
there) or by hand from the rule named; the witnesses show that what each obligation assumes can be met. -/

open Sys2Proof Sys2Proof.Machine

namespace Sys2Proof.Tests

/-- The reset state with the pc moved and bytes placed there: a vector's "pc0" and "bytes". -/
def stateAt (pc : Nat) (bytes : List Byte) : State := (State.reset.setPc pc).placeAtPc bytes

/-- A check on the next state of one step. -/
def after (s : State) (p : State → Bool) : Bool :=
  match step s with
  | .next t => p t
  | _ => false

/-- The step ends FAULTED with this record. -/
def faults (s : State) (kind : FaultKind) (opcode : Option Byte) (pc info : Nat) : Bool :=
  after s fun t => t.status == .faulted && t.fault == some ⟨kind, opcode, pc, some info⟩

/-! ## WellFormed: one ill-formed term for each check, refused -/

theorem test_wf_refuses_ldi_r8 : (Instr.ldi 8 0).wf = false := by decide
theorem test_wf_refuses_prn_r8 : (Instr.prn 8).wf = false := by decide
theorem test_wf_refuses_push_r8 : (Instr.push 8).wf = false := by decide
theorem test_wf_refuses_pop_r8 : (Instr.pop 8).wf = false := by decide
theorem test_wf_refuses_call_r8 : (Instr.call 8).wf = false := by decide
theorem test_wf_refuses_jmp_r8 : (Instr.jmp 8).wf = false := by decide
theorem test_wf_refuses_jeq_r8 : (Instr.jeq 8).wf = false := by decide
theorem test_wf_refuses_jne_r8 : (Instr.jne 8).wf = false := by decide
theorem test_wf_refuses_mul_first_r8 : (Instr.mul 8 0).wf = false := by decide
theorem test_wf_refuses_mul_second_r255 : (Instr.mul 0 255).wf = false := by decide
theorem test_wf_refuses_add_first_r8 : (Instr.add 8 0).wf = false := by decide
theorem test_wf_refuses_add_second_r255 : (Instr.add 0 255).wf = false := by decide
theorem test_wf_refuses_cmp_first_r8 : (Instr.cmp 8 0).wf = false := by decide
theorem test_wf_refuses_cmp_second_r255 : (Instr.cmp 0 255).wf = false := by decide
theorem test_wf_accepts_r7_and_any_immediate : (Instr.ldi 7 255).wf = true ∧ (Instr.add 7 0).wf = true ∧ Instr.ret.wf = true := by
  decide

/-! ## Decode: every constructor, from a word written out by the encoding tables (R51 to R53, R57, R60) -/

theorem test_decode_ldi : decode [0b10000010, 0b00000111, 0b10000000] = .ok (.ldi 7 128, []) := rfl
theorem test_decode_prn : decode [0b01000111, 0b00000011] = .ok (.prn 3, []) := rfl
theorem test_decode_hlt : decode [0b00000001] = .ok (.hlt, []) := rfl
theorem test_decode_mul : decode [0b10100010, 0b00000001, 0b00000010] = .ok (.mul 1 2, []) := rfl
theorem test_decode_add : decode [0b10100000, 0b00000110, 0b00000101] = .ok (.add 6 5, []) := rfl
theorem test_decode_push : decode [0b01000101, 0b00000111] = .ok (.push 7, []) := rfl
theorem test_decode_pop : decode [0b01000110, 0b00000100] = .ok (.pop 4, []) := rfl
theorem test_decode_call : decode [0b01010000, 0b00000010] = .ok (.call 2, []) := rfl
theorem test_decode_ret : decode [0b00010001, 0b01000111] = .ok (.ret, [0x47]) := rfl
theorem test_decode_cmp : decode [0b10100111, 0b00000000, 0b00000111] = .ok (.cmp 0 7, []) := rfl
theorem test_decode_jmp : decode [0b01010100, 0b00000001] = .ok (.jmp 1, []) := rfl
theorem test_decode_jeq : decode [0b01010101, 0b00000101] = .ok (.jeq 5, []) := rfl
theorem test_decode_jne : decode [0b01010110, 0b00000110] = .ok (.jne 6, []) := rfl
theorem test_decode_unknown : decode [0xFF, 9, 9] = .error (.unknownOpcode 0xFF) := rfl
theorem test_decode_no_nop : decode [0x00] = .error (.unknownOpcode 0x00) := rfl
theorem test_decode_short_two : decode [0x82, 9] = .error (.missingOperand 2) := rfl
theorem test_decode_short_one : decode [0x47] = .error (.missingOperand 1) := rfl
theorem test_decode_nothing : decode [] = .error .noOpcode := rfl
theorem test_decodeTableWord : decodeTableWord 24 0x0201A0 = some (.add 1 2) ∧ decodeTableWord 8 0xFFFF01 = some .hlt := by
  decide
set_option maxRecDepth 8000 in
/-- "243 of the 256 byte values" are illegal with the default opcodes (R58). -/
theorem test_illegal_opcode_count :
    ((List.range 256).filter fun n => (lookup defaultOpcodes (BitVec.ofNat 8 n)).isNone).length = 243 := by decide

/-! ## Instructions: vectors of spec/95_test_vectors.md -/

theorem test_ldi_2 : after (stateAt 10 [0x82, 7, 0x80]) (fun t => t.reg 7 == 128 && t.pc == 13) = true := by decide
theorem test_ldi_5 : faults (stateAt 254 [0x82, 9]) .addressFault (some 0x82) 254 256 = true := by decide
theorem test_prn_2 : after (stateAt 0 [0x47, 7]) (fun t => t.out == [244] && t.pc == 2) = true := by decide
theorem test_prn_3 : faults (stateAt 0 [0x47, 0x47]) .registerIndexFault (some 0x47) 0 0x47 = true := by decide
theorem test_hlt_2 : after (stateAt 255 [0x01]) (fun t => t.status == .halted && t.pc == 255) = true := by decide
theorem test_add_4 : after ((stateAt 0 [0xA0, 2, 2]).setReg 2 0x90) (fun t => t.reg 2 == 0x20 && t.pc == 3) = true := by decide
theorem test_add_7 : faults (stateAt 0 [0xA0, 9, 0x0A]) .registerIndexFault (some 0xA0) 0 9 = true := by decide
theorem test_mul_3 : after (((stateAt 0 [0xA2, 0, 1]).setReg 0 255).setReg 1 255) (fun t => t.reg 0 == 1 && t.reg 1 == 255) = true := by decide
theorem test_mul_5 : after ((stateAt 0 [0xA2, 3, 3]).setReg 3 17) (fun t => t.reg 3 == 33 && t.pc == 3) = true := by decide
theorem test_cmp_2 : after (((stateAt 0 [0xA7, 0, 1]).setReg 0 10).setReg 1 10) (fun t => t.flag && t.pc == 3) = true := by decide
theorem test_cmp_3 : after ((((stateAt 0 [0xA7, 0, 1]).setReg 0 10).setReg 1 20).setFlag true) (fun t => t.flag && t.pc == 3) = true := by decide
theorem test_push_2 : after (stateAt 0 [0x45, 7]) (fun t => t.reg 7 == 0xF3 && t.memAt 0xF3 == 0xF3 && t.pc == 2) = true := by decide
theorem test_push_4 : after (((stateAt 0 [0x45, 0]).setReg 0 0x46).setReg 7 2) (fun t => t.reg 7 == 1 && t.memAt 1 == 0x46 && t.pc == 2) = true := by decide
theorem test_pop_3 : after (((stateAt 0 [0x46, 7]).setReg 7 0xF3).putByte 0xF3 0x40) (fun t => t.reg 7 == 0x41 && t.pc == 2) = true := by decide
theorem test_pop_4 : after (((stateAt 4 [0x46, 0]).setReg 7 255).putByte 255 0x77) (fun t => t.reg 0 == 0x77 && t.reg 7 == 0 && t.pc == 6) = true := by decide
theorem test_call_2 : after ((stateAt 254 [0x50, 1]).setReg 1 0x10) (fun t => t.reg 7 == 0xF3 && t.memAt 0xF3 == 0 && t.pc == 16) = true := by decide
theorem test_call_3 : after (stateAt 0 [0x50, 7]) (fun t => t.reg 7 == 0xF3 && t.memAt 0xF3 == 2 && t.pc == 0xF3) = true := by decide
theorem test_ret_3 : after (((stateAt 0x13 [0x11, 7]).setReg 7 0xF3).putByte 0xF3 8) (fun t => t.reg 7 == 9 && t.pc == 8) = true := by decide
theorem test_ret_4 : faults (((stateAt 0x13 [0x11, 0x47]).setReg 7 0xF3).putByte 0xF3 8) .registerIndexFault (some 0x11) 0x13 0x47 = true := by decide
theorem test_jmp_3 : after (stateAt 0 [0x54, 7]) (fun t => t.pc == 0xF4) = true := by decide
theorem test_jmp_4 : faults (stateAt 0 [0x54, 0x20]) .registerIndexFault (some 0x54) 0 0x20 = true := by decide
theorem test_jeq_3 : faults (stateAt 0 [0x55, 9]) .registerIndexFault (some 0x55) 0 9 = true := by decide
theorem test_jeq_4 : after (stateAt 254 [0x55, 0]) (fun t => t.pc == 256 && t.status == .running) = true := by decide
theorem test_jne_1 : after ((stateAt 0 [0x56, 2]).setReg 2 0x30) (fun t => t.pc == 0x30) = true := by decide
theorem test_jne_2 : after (((stateAt 0 [0x56, 2]).setReg 2 0x30).setFlag true) (fun t => t.pc == 2) = true := by decide
theorem test_unk_3 : faults (stateAt 255 [0x83]) .unknownOpcode (some 0x83) 255 0x83 = true := by decide
theorem test_fetch_1 : faults (stateAt 256 []) .addressFault none 256 256 = true := by decide
theorem test_nostep_1 : after (State.reset.halt) (fun _ => true) = false := by decide
/-- R6: "trunc8(-1) = 255". -/
theorem test_trunc8_minus_one : trunc8 (-1) = 255 := by decide
/-- R140's cause numbers. -/
theorem test_fault_codes : faultCode .unknownOpcode = 1 ∧ faultCode .addressFault = 2 ∧ faultCode .registerIndexFault = 3 ∧
    faultCode .unsupportedAluOp = 4 := by decide
/-- R172: 256 bytes are accepted, 257 refused. -/
theorem test_image_256 : launch (List.replicate 256 1) ≠ .refused .imageTooLong := by
  unfold launch; rw [if_pos (List.length_replicate (n := 256)).le]; nofun
theorem test_image_257 : launch (List.replicate 257 1) = .refused .imageTooLong :=
  if_neg (by rw [List.length_replicate]; decide)
/-- Storing what an unlisted address reads as takes the cell out (canonical form). -/
theorem test_store_zero_unlists : ((State.reset.putByte 5 1).putByte 5 0).mem = [] := by decide
/-- R155: the report of a faulted run carries the record. -/
theorem test_report : after (stateAt 0 []) (fun t => t.report == (.faulted, some ⟨.unknownOpcode, some 0, 0, some 0⟩)) = true := by
  decide

/-! ## Witnesses: the hypotheses of each obligation can be met -/

theorem witness_ResetStackPointerAndFirstPush :
    Names 0 0 ∧ Names 7 sp ∧ State.reset.reg sp = State.reset.reg sp := ⟨rfl, rfl, rfl⟩
theorem witness_LaunchCopiesTheImageVerbatim :
    (List.replicate 256 (1 : Byte)).length ≤ 256 ∧ 255 < (List.replicate 256 (1 : Byte)).length := by
  rw [List.length_replicate]; decide
theorem witness_OverlongImageHasNoLaunchState :
    256 < (List.replicate 257 (1 : Byte)).length ∧ (List.replicate 256 (1 : Byte)).length = 256 := by
  rw [List.length_replicate, List.length_replicate]; decide
theorem witness_MemoryReadGivesTheLastWrite : (255 : Nat) ≤ 255 ∧ 255 < (256 : Nat) := by decide
theorem witness_CanonicalMemoriesThatReadAlikeAreEqual :
    Memory.wf [(3, 1), (255, 2)] ∧ ∀ a, Memory.byteAt [(3, 1), (255, 2)] a = Memory.byteAt [(3, 1), (255, 2)] a :=
  ⟨by decide, fun _ => rfl⟩
/-- Opcode values other than the defaults are admissible too. -/
theorem witness_LookupYieldsTheOneKindWithThatOpcode :
    admissible defaultOpcodes ∧ admissible { defaultOpcodes with ret := 0x00 } ∧
    opcodeOf defaultOpcodes .cmp = 0xA7 ∧ ∀ k, opcodeOf defaultOpcodes k ≠ 0x00 :=
  ⟨by decide, by decide, rfl, fun k => by cases k <;> decide⟩
theorem witness_DecodeOfEncodeGivesTheInstructionBack : admissible defaultOpcodes := by decide
theorem witness_EncodeOfDecodeGivesTheBytesBack :
    decodeWith defaultOpcodes [0x11, 0x01] = .ok (.ret, [0x01]) := rfl
/-- At 253 the last byte of a three-byte instruction stands at 255. -/
theorem witness_StepExecutesTheInstructionAtThePc :
    admissible defaultOpcodes ∧ (stateAt 253 (encode (.ldi 0 1))).status = .running ∧
    ∀ k (hk : k < (encode (.ldi 0 1)).length), (stateAt 253 (encode (.ldi 0 1))).pc + k ≤ 255 ∧
      (stateAt 253 (encode (.ldi 0 1))).memAt ((stateAt 253 (encode (.ldi 0 1))).pc + k) = (encode (.ldi 0 1))[k] := by
  refine ⟨by decide, rfl, fun k hk => ?_⟩
  have hk3 : k < 3 := hk
  interval_cases k <;> exact ⟨by decide, rfl⟩
theorem witness_PlacedTableWordIsWhatTheNextStepRuns :
    (stateAt 253 []).status = .running ∧ (stateAt 253 []).pc ≤ 253 ∧ decodeTableWord 24 0x010082 = some (.ldi 0 1) :=
  ⟨rfl, by decide, by decide⟩
theorem witness_StepHasANextStateExactlyWhenRunning :
    State.reset.status = .running ∧ State.reset.halt.status = .halted ∧
    (State.reset.enterFault ⟨.addressFault, some 256⟩).status = .faulted := ⟨rfl, rfl, rfl⟩
theorem witness_LdiLoadsTheImmediate :
    Names 0 0 ∧ Names 7 sp ∧ 7 < (8 : Byte).toNat ∧ admissible defaultOpcodes ∧
    RunningAt (stateAt 254 [0x82]) (opcodeOf defaultOpcodes .ldi) ∧ 256 < (stateAt 254 [0x82]).pc + formatReads (formatOf .ldi) ∧
    RunningAt (stateAt 255 [0x82]) (opcodeOf defaultOpcodes .ldi) ∧ 256 < (stateAt 255 [0x82]).pc + formatReads (formatOf .ldi) :=
  ⟨rfl, rfl, by decide, by decide, ⟨rfl, by decide, by decide⟩, by decide, ⟨rfl, by decide, by decide⟩, by decide⟩
theorem witness_PrnEmitsTheRegister :
    Names 0 0 ∧ Names 7 sp ∧ 7 < (8 : Byte).toNat ∧ admissible defaultOpcodes ∧
    RunningAt (stateAt 255 [0x47]) (opcodeOf defaultOpcodes .prn) ∧ 256 < (stateAt 255 [0x47]).pc + formatReads (formatOf .prn) :=
  ⟨rfl, rfl, by decide, by decide, ⟨rfl, by decide, by decide⟩, by decide⟩
theorem witness_HltHaltsAndHoldsThePc :
    admissible defaultOpcodes ∧ RunningAt (stateAt 255 [0x01]) 0x01 := ⟨by decide, rfl, by decide, by decide⟩
theorem witness_AddStoresTheSumModulo256 :
    Names 0 0 ∧ Names 7 sp ∧ 7 < (8 : Byte).toNat ∧ (7 : Byte).toNat ≤ 7 ∧ 7 < (255 : Byte).toNat ∧ admissible defaultOpcodes ∧
    RunningAt (stateAt 254 [0xA0]) (opcodeOf defaultOpcodes .add) ∧ 256 < (stateAt 254 [0xA0]).pc + formatReads (formatOf .add) ∧
    RunningAt (stateAt 255 [0xA0]) (opcodeOf defaultOpcodes .add) ∧ 256 < (stateAt 255 [0xA0]).pc + formatReads (formatOf .add) :=
  ⟨rfl, rfl, by decide, by decide, by decide, by decide, ⟨rfl, by decide, by decide⟩, by decide, ⟨rfl, by decide, by decide⟩, by decide⟩
theorem witness_MulStoresTheProductModulo256 :
    Names 0 0 ∧ Names 7 sp ∧ 7 < (8 : Byte).toNat ∧ (7 : Byte).toNat ≤ 7 ∧ 7 < (255 : Byte).toNat ∧ admissible defaultOpcodes ∧
    RunningAt (stateAt 254 [0xA2]) (opcodeOf defaultOpcodes .mul) ∧ 256 < (stateAt 254 [0xA2]).pc + formatReads (formatOf .mul) ∧
    RunningAt (stateAt 255 [0xA2]) (opcodeOf defaultOpcodes .mul) ∧ 256 < (stateAt 255 [0xA2]).pc + formatReads (formatOf .mul) :=
  ⟨rfl, rfl, by decide, by decide, by decide, by decide, ⟨rfl, by decide, by decide⟩, by decide, ⟨rfl, by decide, by decide⟩, by decide⟩
theorem witness_CmpSetsTheFlagOnEqualityOnly :
    Names 0 0 ∧ Names 7 sp ∧ 7 < (8 : Byte).toNat ∧ (7 : Byte).toNat ≤ 7 ∧ 7 < (255 : Byte).toNat ∧ admissible defaultOpcodes ∧
    RunningAt (stateAt 254 [0xA7]) (opcodeOf defaultOpcodes .cmp) ∧ 256 < (stateAt 254 [0xA7]).pc + formatReads (formatOf .cmp) ∧
    RunningAt (stateAt 255 [0xA7]) (opcodeOf defaultOpcodes .cmp) ∧ 256 < (stateAt 255 [0xA7]).pc + formatReads (formatOf .cmp) :=
  ⟨rfl, rfl, by decide, by decide, by decide, by decide, ⟨rfl, by decide, by decide⟩, by decide, ⟨rfl, by decide, by decide⟩, by decide⟩
theorem witness_CmpSetsTheFlagOnEqualityOnly_both_ways :
    State.reset.reg 0 = State.reset.reg 1 ∧ State.reset.reg 0 ≠ State.reset.reg sp := by decide
theorem witness_PushStoresAtTheDecrementedStackPointer :
    Names 0 0 ∧ Names 7 sp ∧ 7 < (8 : Byte).toNat ∧ admissible defaultOpcodes ∧
    RunningAt (stateAt 255 [0x45]) (opcodeOf defaultOpcodes .push) ∧ 256 < (stateAt 255 [0x45]).pc + formatReads (formatOf .push) :=
  ⟨rfl, rfl, by decide, by decide, ⟨rfl, by decide, by decide⟩, by decide⟩
theorem witness_PushStoresAtTheDecrementedStackPointer_wrap :
    ((State.reset.setReg sp 0).decSp.reg sp).toNat = 255 := by decide
theorem witness_PopLoadsFromTheStackPointer :
    Names 0 0 ∧ Names 7 sp ∧ 7 < (8 : Byte).toNat ∧ admissible defaultOpcodes ∧
    RunningAt (stateAt 255 [0x46]) (opcodeOf defaultOpcodes .pop) ∧ 256 < (stateAt 255 [0x46]).pc + formatReads (formatOf .pop) :=
  ⟨rfl, rfl, by decide, by decide, ⟨rfl, by decide, by decide⟩, by decide⟩
theorem witness_CallPushesTheReturnAddressAndJumps :
    Names 0 0 ∧ Names 7 sp ∧ 7 < (8 : Byte).toNat ∧ admissible defaultOpcodes ∧
    RunningAt (stateAt 255 [0x50]) (opcodeOf defaultOpcodes .call) ∧ 256 < (stateAt 255 [0x50]).pc + formatReads (formatOf .call) :=
  ⟨rfl, rfl, by decide, by decide, ⟨rfl, by decide, by decide⟩, by decide⟩
theorem witness_RetReturnsAndWritesThePeekedRegister :
    (stateAt 254 [0x11, 7]).pc + 1 ≤ 255 ∧ Names ((stateAt 254 [0x11, 7]).memAt 255) sp ∧
    Names ((stateAt 254 [0x11, 0]).memAt 255) 0 ∧ 7 < ((stateAt 254 [0x11, 8]).memAt 255).toNat ∧
    admissible defaultOpcodes ∧ RunningAt (stateAt 255 [0x11]) (opcodeOf defaultOpcodes .ret) ∧
    256 < (stateAt 255 [0x11]).pc + formatReads (formatOf .ret) :=
  ⟨by decide, by show _ = _; decide, by show _ = _; decide, by decide, by decide, ⟨rfl, by decide, by decide⟩, by decide⟩
theorem witness_JmpGoesToTheRegister :
    Names 0 0 ∧ Names 7 sp ∧ 7 < (8 : Byte).toNat ∧ admissible defaultOpcodes ∧
    RunningAt (stateAt 255 [0x54]) (opcodeOf defaultOpcodes .jmp) ∧ 256 < (stateAt 255 [0x54]).pc + formatReads (formatOf .jmp) :=
  ⟨rfl, rfl, by decide, by decide, ⟨rfl, by decide, by decide⟩, by decide⟩
theorem witness_JeqBranchesWhenTheFlagIsSet :
    Names 0 0 ∧ Names 7 sp ∧ 7 < (8 : Byte).toNat ∧ admissible defaultOpcodes ∧
    RunningAt (stateAt 255 [0x55]) (opcodeOf defaultOpcodes .jeq) ∧ 256 < (stateAt 255 [0x55]).pc + formatReads (formatOf .jeq) :=
  ⟨rfl, rfl, by decide, by decide, ⟨rfl, by decide, by decide⟩, by decide⟩
theorem witness_JneBranchesWhenTheFlagIsClear :
    Names 0 0 ∧ Names 7 sp ∧ 7 < (8 : Byte).toNat ∧ admissible defaultOpcodes ∧
    RunningAt (stateAt 255 [0x56]) (opcodeOf defaultOpcodes .jne) ∧ 256 < (stateAt 255 [0x56]).pc + formatReads (formatOf .jne) :=
  ⟨rfl, rfl, by decide, by decide, ⟨rfl, by decide, by decide⟩, by decide⟩
theorem witness_branch_flags : (State.reset.setFlag true).flag = true ∧ State.reset.flag = false := ⟨rfl, rfl⟩
theorem witness_JeqAndJneAreComplements : Names 7 sp := rfl
theorem witness_AluComputesModulo256AndRefusesOtherKinds :
    State.reset.fault = none ∧
    ∃ t r, stepWith defaultOpcodes State.reset = .next t ∧ t.fault = some r := ⟨rfl, _, _, rfl, rfl⟩
/-- One state for each clause, each at the edge of its range. -/
theorem witness_FirstFaultInPhaseOrderIsReported :
    admissible defaultOpcodes ∧ (stateAt 256 []).status = .running ∧ 255 < (stateAt 256 []).pc ∧
    ((stateAt 255 [0x83]).pc ≤ 255 ∧ ∀ k, opcodeOf defaultOpcodes k ≠ (stateAt 255 [0x83]).memAt (stateAt 255 [0x83]).pc) ∧
    (RunningAt (stateAt 254 [0x82, 9]) (opcodeOf defaultOpcodes .ldi) ∧
      256 < (stateAt 254 [0x82, 9]).pc + formatReads (formatOf .ldi)) ∧
    (RunningAt (stateAt 253 [0xA0, 7, 8]) (opcodeOf defaultOpcodes .add) ∧
      (stateAt 253 [0xA0, 7, 8]).pc + formatReads (formatOf .add) ≤ 256 ∧
      firstBadRegByte .add (stateAt 253 [0xA0, 7, 8]) = some 8) :=
  ⟨by decide, rfl, by decide, ⟨by decide, fun k => by cases k <;> decide⟩, ⟨⟨rfl, by decide, by decide⟩, by decide⟩,
    ⟨rfl, by decide, by decide⟩, by decide, by decide⟩
theorem witness_FaultingStepChangesOnlyStatusAndRecord :
    ∃ t, stepWith defaultOpcodes (stateAt 256 []) = .next t ∧ t.status = .faulted := ⟨_, rfl, rfl⟩
theorem witness_UnknownOpcodeExactlyForBytesOutsideTheThirteen :
    (stateAt 255 [0x83]).status = .running ∧ (stateAt 255 [0x83]).fault = none ∧ (stateAt 255 [0x83]).pc ≤ 255 ∧
    ∀ k, opcodeOf defaultOpcodes k ≠ (stateAt 255 [0x83]).memAt (stateAt 255 [0x83]).pc :=
  ⟨rfl, rfl, by decide, fun k => by cases k <;> decide⟩
theorem witness_AddressFaultExactlyAtTheEndOfMemory :
    admissible defaultOpcodes ∧ (stateAt 256 []).status = .running ∧ (stateAt 256 []).fault = none ∧ (stateAt 256 []).pc ≤ 256 ∧
    ∃ t r, stepWith defaultOpcodes (stateAt 256 []) = .next t ∧ t.fault = some r ∧ r.kind = .addressFault :=
  ⟨by decide, rfl, rfl, by decide, _, _, rfl, rfl, rfl⟩
theorem witness_RegisterIndexFaultExactlyForABadRegisterByte :
    admissible defaultOpcodes ∧ (stateAt 254 [0x47, 8]).status = .running ∧ (stateAt 254 [0x47, 8]).fault = none ∧
    firstBadRegByte .prn (stateAt 254 [0x47, 8]) = some 8 := ⟨by decide, rfl, rfl, by decide⟩
theorem witness_StepCompletesExactlyWhenEveryCheckPasses :
    admissible defaultOpcodes ∧ RunningAt (stateAt 254 [0x11, 7]) (opcodeOf defaultOpcodes .ret) ∧
    (stateAt 254 [0x11, 7]).pc + formatReads (formatOf .ret) ≤ 256 ∧ firstBadRegByte .ret (stateAt 254 [0x11, 7]) = none :=
  ⟨by decide, ⟨rfl, by decide, by decide⟩, by decide, by decide⟩
theorem witness_InvariantHoldsAtLaunch : ∃ t, launch [0x01] = .next t := ⟨_, rfl⟩
/-- The invariant holds at the pc's largest value, and a step from there has a next state. -/
theorem witness_EveryStepKeepsTheInvariant :
    StateInv (stateAt 256 []) ∧ ∃ t, stepWith defaultOpcodes (stateAt 256 []) = .next t :=
  ⟨⟨by decide, by decide, by decide, fun r h => by cases h⟩, _, rfl⟩
theorem witness_FlagIsWrittenOnlyByCmpAndReadOnlyByBranches :
    ∃ t, stepWith defaultOpcodes (stateAt 0 [0xA7, 0, 1]) = .next t ∧ t.flag ≠ (stateAt 0 [0xA7, 0, 1]).flag ∧
      (stateAt 0 [0xA7, 0, 1]).memAt (stateAt 0 [0xA7, 0, 1]).pc ≠ opcodeOf defaultOpcodes .jeq ∧
      (stateAt 0 [0xA7, 0, 1]).memAt (stateAt 0 [0xA7, 0, 1]).pc ≠ opcodeOf defaultOpcodes .jne :=
  ⟨_, rfl, by decide, by decide, by decide⟩
theorem witness_OutputIsAppendedOnlyByPrnAndNeverRead :
    ∃ t, stepWith defaultOpcodes (stateAt 0 [0x47, 7]) = .next t ∧ t.out = [244] := ⟨_, rfl, by decide⟩
theorem witness_MemoryIsWrittenOnlyByPushAndCall :
    ∃ t, stepWith defaultOpcodes (stateAt 0 [0x45, 7]) = .next t ∧ t.memAt 0xF3 ≠ (stateAt 0 [0x45, 7]).memAt 0xF3 :=
  ⟨_, rfl, by decide⟩
theorem witness_RegistersAreWrittenOnlyAsTheTableSays :
    ∃ t, stepWith defaultOpcodes (stateAt 0 [0x82, 3, 9]) = .next t ∧ t.reg 3 ≠ (stateAt 0 [0x82, 3, 9]).reg 3 :=
  ⟨_, rfl, by decide⟩
theorem witness_EveryInstructionSetsThePcAsTheTableSays :
    admissible defaultOpcodes ∧ (∃ t, stepWith defaultOpcodes (stateAt 254 [0x55, 0]) = .next t ∧ t.status ≠ .faulted) ∧
    (stateAt 254 [0x55, 0]).memAt (stateAt 254 [0x55, 0]).pc = opcodeOf defaultOpcodes .jeq ∧
    ∃ t, stepWith defaultOpcodes (stateAt 255 [0x55]) = .next t ∧ t.status = .faulted :=
  ⟨by decide, ⟨_, rfl, by decide⟩, by decide, _, rfl, by decide⟩
theorem witness_StatusChangesOnlyByHltOrFault :
    admissible defaultOpcodes ∧ (stateAt 255 [0x01]).fault = none ∧
    (∃ t, stepWith defaultOpcodes (stateAt 255 [0x01]) = .next t ∧ t.status = .halted) ∧
    ∃ t, stepWith defaultOpcodes (stateAt 0 [0x47, 0]) = .next t ∧ t.status ≠ .halted ∧ t.status ≠ .faulted :=
  ⟨by decide, rfl, ⟨_, rfl, by decide⟩, _, rfl, by decide, by decide⟩
theorem witness_PushThenPopRestoresEveryRegister : Names 0 0 ∧ Names 7 sp := ⟨rfl, rfl⟩
/-- A state as the RET finds it: the CALL's own next state, moved to a RET at 10 followed by the byte 1. -/
def atItsRet (t : State) : State := (t.setPc 10).putByte 11 1
/-- A CALL at 253. -/
theorem witness_RetUndoesItsCall :
    Names 0 0 ∧ (stateAt 253 []).pc ≤ 253 ∧ ∃ t, exec (.call 0) (stateAt 253 []) = .next t ∧
      (atItsRet t).reg sp = t.reg sp ∧ (atItsRet t).memAt (t.reg sp).toNat = t.memAt (t.reg sp).toNat ∧
      (atItsRet t).pc + 1 ≤ 255 ∧ Names ((atItsRet t).memAt ((atItsRet t).pc + 1)) 1 ∧ (1 : RegIndex) ≠ sp :=
  ⟨rfl, by decide, _, rfl, by decide, by decide, by decide, by show _ = _; decide, by decide⟩
/-- A CALL at 254. -/
theorem witness_RetUndoesItsCall_at_254 :
    Names 0 0 ∧ (stateAt 254 []).pc = 254 ∧ ∃ t, exec (.call 0) (stateAt 254 []) = .next t ∧
      (atItsRet t).reg sp = t.reg sp ∧ (atItsRet t).memAt (t.reg sp).toNat = t.memAt (t.reg sp).toNat ∧
      (atItsRet t).pc + 1 ≤ 255 ∧ Names ((atItsRet t).memAt ((atItsRet t).pc + 1)) 1 :=
  ⟨rfl, rfl, _, rfl, by decide, by decide, by decide, by show _ = _; decide⟩
/-- A PUSH at 253 of HLT's opcode, stored at 255, the next instruction's byte. -/
def pushAhead : State := ((stateAt 253 [0x45, 0]).setReg sp 0).setReg 0 1
/-- A PUSH at 253 stored at 254, its own operand byte. -/
def pushOnItself : State := (stateAt 253 [0x45, 0]).setReg sp 255
theorem witness_StoreIsSeenByTheNextFetch :
    admissible defaultOpcodes ∧ (0 : RegIndex) ≠ sp ∧
    (RunningAt pushAhead (opcodeOf defaultOpcodes .push) ∧ pushAhead.pc ≤ 253 ∧ Names (pushAhead.memAt (pushAhead.pc + 1)) 0 ∧
      (pushAhead.reg sp - 1).toNat = pushAhead.pc + 2 ∧ pushAhead.reg 0 = opcodeOf defaultOpcodes .hlt) ∧
    (RunningAt pushOnItself (opcodeOf defaultOpcodes .push) ∧ pushOnItself.pc ≤ 253 ∧
      Names (pushOnItself.memAt (pushOnItself.pc + 1)) 0 ∧ (pushOnItself.reg sp - 1).toNat = pushOnItself.pc + 1) :=
  ⟨by decide, by decide, ⟨⟨rfl, by decide, by decide⟩, by decide, by show _ = _; decide, by decide, by decide⟩,
    ⟨rfl, by decide, by decide⟩, by decide, by show _ = _; decide, by decide⟩
theorem witness_TracerSeesOnlyPcWindowAndRegisters :
    (stateAt 255 [1]).trace = ((stateAt 255 [1]).setFlag true).trace := rfl
theorem witness_FlagStaysSetForTheRestOfTheRun :
    (State.reset.setFlag true).flag = true ∧
    ∃ t, Host.Core.run Sys2Proof.core 1 ((stateAt 0 [0x82, 0, 8]).setFlag true) = .next t := ⟨rfl, _, rfl⟩
theorem witness_LaunchedRunsKeepTheInvariantAndTheirOutput :
    ∃ s t u, launch [0x47, 0x07, 0x01] = .next s ∧ Host.Core.run Sys2Proof.core 1 s = .next t ∧
      Host.Core.run Sys2Proof.core 1 t = .next u := ⟨_, _, _, rfl, rfl, rfl⟩
theorem witness_HaltedRunEndsAtAnHltByte :
    (stateAt 255 [0x01]).status = .running ∧ (stateAt 255 [0x01]).fault = none ∧
    ∃ t, HaltsIn 1 (stateAt 255 [0x01]) t := ⟨rfl, rfl, _, rfl, rfl⟩

end Sys2Proof.Tests
end

section
/-! PROOFS. What one completed effect writes and leaves, field by field; what a raised cause may say; and that the cases of a
step exclude each other, so that naming the case is naming the step's answer. -/

namespace Sys2Proof.Machine

section
variable {c : Config.Opcodes} {s t s' : State} {k l : OpKind} {z z' : Cause}

/-! ### The step's answer, read in both directions -/

/-- The inversion of a step: fault entry from a raised cause, or the effect of the kind at the pc. -/
theorem cases_of_stepWith (h : stepWith c s = .next t) :
    (∃ z, Raises c s z ∧ t = s.enterFault z) ∨ ∃ k, Fetched c s k ∧ firstBadRegByte k s = none ∧ Effect k s t := by
  rcases step_cases c (running_of_stepWith h) with ⟨z, hz, ho⟩ | ⟨k, u, hF, hb, hE, ho⟩
  · exact .inl ⟨z, hz, Host.Outcome.next.inj (h.symm.trans ho)⟩
  · cases Host.Outcome.next.inj (h.symm.trans ho)
    exact .inr ⟨k, hF, hb, hE⟩

theorem Fetched.opcode_eq (h : Fetched c s k) : s.memAt s.pc = opcodeOf c k := (opcodeOf_of_lookup h.2.1).symm

theorem Fetched.runningAt (hr : s.status = .running) (h : Fetched c s k) : RunningAt s (opcodeOf c k) :=
  ⟨hr, h.1, h.opcode_eq⟩

theorem fetched_of_runningAt (hc : admissible c) (h : RunningAt s (opcodeOf c k))
    (hl : s.pc + formatReads (formatOf k) ≤ 256) : Fetched c s k := by
  obtain ⟨-, hpc, hop⟩ := h
  exact ⟨hpc, by rw [hop, lookup_opcodeOf hc], hl⟩

theorem Fetched.kind_unique (h : Fetched c s k) (h' : Fetched c s l) : k = l :=
  Option.some.inj (h.2.1.symm.trans h'.2.1)

theorem Effect.state_unique (h : Effect k s t) (h' : Effect k s s') : t = s' := by
  cases k
  case hlt => exact h.trans h'.symm
  case mul | add | cmp =>
    obtain ⟨i, j, hi, hj, rfl⟩ := h
    obtain ⟨i', j', hi', hj', rfl⟩ := h'
    rw [Fin.ext (hi.symm.trans hi'), Fin.ext (hj.symm.trans hj')]
  case ldi | prn | push | pop | call | ret | jmp | jeq | jne =>
    obtain ⟨i, hi, rfl⟩ := h
    obtain ⟨i', hi', rfl⟩ := h'
    rw [Fin.ext (hi.symm.trans hi')]

/-- No cause is raised when the instruction's bytes are in memory and its register bytes are legal. -/
theorem Raises.not_passes (h : Raises c s z) (hF : Fetched c s k) : firstBadRegByte k s ≠ none := by
  obtain ⟨hpc, hl, hlen⟩ := hF
  cases h with
  | fetch h => omega
  | decode _ hn => rw [hl] at hn; cases hn
  | operand k' _ hl' he =>
    cases Option.some.inj (hl.symm.trans hl')
    omega
  | register k' n hF' hb =>
    cases Option.some.inj (hl.symm.trans hF'.2.1)
    simp [hb]

theorem Raises.cause_unique (h : Raises c s z) (h' : Raises c s z') : z = z' := by
  cases h with
  | fetch h => cases h' with
    | fetch => rfl
    | decode h' | operand _ h' => omega
    | register _ _ hF => have := hF.1; omega
  | decode h hn => cases h' with
    | fetch => omega
    | decode => rfl
    | operand _ _ hl => simp [hn] at hl
    | register _ _ hF => exact absurd (hn.symm.trans hF.2.1) (by simp)
  | operand k h hl he => cases h' with
    | fetch => omega
    | decode _ hn => simp [hl] at hn
    | operand => rfl
    | register l _ hF =>
      obtain ⟨-, hl', hlen⟩ := hF
      cases Option.some.inj (hl.symm.trans hl')
      omega
  | register k n hF hb =>
    obtain ⟨hpc, hl, hlen⟩ := hF
    cases h' with
    | fetch => omega
    | decode _ hn => simp [hl] at hn
    | operand l _ hl' he =>
      cases Option.some.inj (hl.symm.trans hl')
      omega
    | register l m hF' hb' =>
      cases Option.some.inj (hl.symm.trans hF'.2.1)
      cases hb.symm.trans hb'
      rfl

/-- A raised cause is the step's answer. -/
theorem stepWith_of_raises (hr : s.status = .running) (h : Raises c s z) : stepWith c s = .next (s.enterFault z) := by
  rcases step_cases c hr with ⟨z', hz', ho⟩ | ⟨k, u, hF, hb, -, -⟩
  · rw [ho, h.cause_unique hz']
  · exact absurd hb (h.not_passes hF)

/-- The effect of the kind at the pc, every check passed, is the step's answer. -/
theorem stepWith_of_effect (hr : s.status = .running) (hF : Fetched c s k) (hb : firstBadRegByte k s = none)
    (hE : Effect k s t) : stepWith c s = .next t := by
  rcases step_cases c hr with ⟨z, hz, -⟩ | ⟨l, u, hF', -, hE', ho⟩
  · exact absurd hb (hz.not_passes hF)
  · cases hF.kind_unique hF'
    rw [ho, hE.state_unique hE']

/-! ### What an effect writes and leaves -/

theorem Effect.fault_eq (h : Effect k s t) : t.fault = s.fault := by
  cases k
  case hlt => subst h; rfl
  case mul | add | cmp => obtain ⟨i, j, -, -, rfl⟩ := h; rfl
  case ldi | prn | push | pop | call | ret | jmp | jeq | jne => obtain ⟨i, -, rfl⟩ := h; rfl

/-- HLT alone writes the status. -/
theorem Effect.status_eq (h : Effect k s t) : t.status = if k = .hlt then .halted else s.status := by
  cases k
  case hlt => subst h; rfl
  case mul | add | cmp => obtain ⟨i, j, -, -, rfl⟩ := h; rfl
  case ldi | prn | push | pop | call | ret | jmp | jeq | jne => obtain ⟨i, -, rfl⟩ := h; rfl

theorem Effect.mem_wf (h : Effect k s t) (hm : s.mem.wf) : t.mem.wf := by
  cases k
  case hlt => subst h; exact hm
  case mul | add | cmp => obtain ⟨i, j, -, -, rfl⟩ := h; exact hm
  case push | call => obtain ⟨i, -, rfl⟩ := h; exact setByte_wf _ hm (BitVec.isLt _)
  case ldi | prn | pop | ret | jmp | jeq | jne => obtain ⟨i, -, rfl⟩ := h; exact hm

/-- The table of R15 (spec/10_state.md). -/
theorem Effect.nextPcIs (h : Effect k s t) : NextPcIs k s t := by
  cases k
  case hlt => subst h; rfl
  case mul | add | cmp => obtain ⟨i, j, -, -, rfl⟩ := h; rfl
  case ldi | prn | push | pop | ret => obtain ⟨i, -, rfl⟩ := h; rfl
  case call | jmp | jeq | jne => obtain ⟨i, hi, rfl⟩ := h; exact ⟨i, hi, rfl⟩

/-- A pc taken from a byte is below 256, and one past an instruction that lies in memory is at most 256. -/
theorem NextPcIs.pc_le (h : NextPcIs k s t) (hl : s.pc + formatReads (formatOf k) ≤ 256) : t.pc ≤ 256 := by
  have byte_le (b : Byte) : b.toNat ≤ 256 := b.isLt.le
  cases k
  case ldi | mul | add | cmp | prn | push | pop => exact h.le.trans hl
  case hlt => exact h.le.trans (by omega)
  case ret => exact h.le.trans (byte_le _)
  case call | jmp => obtain ⟨i, -, h⟩ := h; exact h.le.trans (byte_le _)
  case jeq =>
    obtain ⟨i, -, h⟩ := h
    rw [h]
    split
    · exact byte_le _
    · exact hl
  case jne =>
    obtain ⟨i, -, h⟩ := h
    rw [h]
    split
    · exact hl
    · exact byte_le _

/-! ### What a raised cause says -/

theorem fetchedOpcode_eq_none_iff (h : s.pc ≤ 256) : s.fetchedOpcode = none ↔ s.pc = 256 := by
  rcases Nat.lt_or_ge s.pc 256 with h' | h'
  · simp [fetchedOpcode_inside (Nat.le_of_lt_succ h')]; omega
  · simp [fetchedOpcode_outside h']; omega

theorem formatReads_le (f : Format) : formatReads f ≤ 3 := by cases f <;> decide

theorem firstBadRegByte_range {n : Nat} (h : firstBadRegByte k s = some n) : 8 ≤ n ∧ n ≤ 255 := by
  unfold firstBadRegByte at h
  split at h
  · cases h
  · exact badRegByte_range h
  · exact badRegByte_range h
  · exact badRegByte_range h
  · rcases Option.or_eq_some_iff.mp h with h | ⟨-, h⟩
    all_goals exact badRegByte_range h

theorem Raises.recordOk (h : Raises c s z) (hpc : s.pc ≤ 256) :
    RecordOk (s.enterFault z) ⟨z.kind, s.fetchedOpcode, s.pc, z.info⟩ := by
  refine ⟨rfl, fetchedOpcode_eq_none_iff hpc, ?_⟩
  cases h with
  | fetch h => exact ⟨congrArg some (by omega), by rw [enterFault_pc]; omega⟩
  | decode h => exact ⟨_, fetchedOpcode_inside h, rfl⟩
  | operand k _ _ he =>
    have := formatReads_le (formatOf k)
    exact ⟨rfl, by rw [enterFault_pc]; omega⟩
  | register _ n _ hb =>
    obtain ⟨h8, h255⟩ := firstBadRegByte_range hb
    exact ⟨n, h8, h255, rfl⟩

/-! ### The invariant -/

theorem Raises.stateInv_enterFault (h : Raises c s z) (hs : StateInv s) : StateInv (s.enterFault z) := by
  obtain ⟨hm, hpc, -, -⟩ := hs
  refine ⟨hm, hpc, by simp, fun r hr => ?_⟩
  cases hr
  exact h.recordOk hpc

/-- A completed instruction started without a record, since it started RUNNING, and leaves none. -/
theorem Effect.stateInv (h : Effect k s t) (hF : Fetched c s k) (hr : s.status = .running) (hs : StateInv s) :
    StateInv t := by
  obtain ⟨hm, -, hfault, -⟩ := hs
  have hnone : t.fault = none := by
    rw [h.fault_eq]
    simpa [hr] using hfault
  refine ⟨h.mem_wf hm, h.nextPcIs.pc_le hF.2.2, ?_, by simp [hnone]⟩
  rw [h.status_eq, hnone, hr]
  split <;> simp

end

/-- Settles O38: fault entry keeps the invariant by what its cause may say, and each effect keeps it field by field. -/
theorem everyStepKeepsTheInvariant : Obligations.EveryStepKeepsTheInvariant := by
  intro c s t hs h
  rcases cases_of_stepWith h with ⟨z, hz, rfl⟩ | ⟨k, hF, -, hE⟩
  · exact hz.stateInv_enterFault hs
  · exact hE.stateInv hF (running_of_stepWith h) hs

end Sys2Proof.Machine
end

section
/-! PROOFS. The state after reset and in a launch state (spec/10_state.md R23 to R26, spec/70_reset_and_hazards.md R170, R171). -/

namespace Sys2Proof.Machine

/-! ### Reset -/

@[simp] theorem reset_memAt (a : Nat) : State.reset.memAt a = 0 := rfl

theorem reset_reg_sp : State.reset.reg sp = 0xF4 := rfl

theorem reset_reg_of_ne_sp : ∀ i : RegIndex, i ≠ sp → State.reset.reg i = 0 := by decide

theorem stateInv_reset : StateInv State.reset :=
  ⟨reset_mem_wf, by decide, by decide, by simp [State.reset]⟩

/-! ### Launch -/

theorem launch_eq {img : List Byte} (h : img.length ≤ 256) : launch img = .next (State.reset.load img) := if_pos h

theorem eq_load_of_launch {img : List Byte} {t : State} (h : launch img = .next t) : t = State.reset.load img := by
  unfold launch at h
  split at h
  · cases h; rfl
  · cases h

theorem load_memAt {img : List Byte} (h : img.length ≤ 256) (a : Nat) :
    (State.reset.load img).memAt a = if ha : a < img.length then img[a] else 0 := by
  have hnil : State.reset.mem.byteAt a = 0 := reset_memAt a
  show (State.reset.mem.placeBytes 0 img).byteAt a = _
  simpa [hnil] using byteAt_placeBytes img State.reset.mem (a := 0) (by omega) a

theorem stateInv_of_launch {img : List Byte} {t : State} (h : launch img = .next t) : StateInv t := by
  cases eq_load_of_launch h
  obtain ⟨hm, hpc, hfault, -⟩ := stateInv_reset
  exact ⟨placeBytes_wf img _ hm, hpc, hfault, by simp [State.reset]⟩

/-! ### What fault entry is to an observer -/

theorem enterFault_faultsFrom (s : State) (kind : FaultKind) (n : Nat) :
    FaultsFrom s kind s.fetchedOpcode n (.next (s.enterFault ⟨kind, some n⟩)) :=
  ⟨_, rfl, rfl, rfl, fun _ _ => rfl, rfl, rfl, fun _ => rfl, rfl⟩

theorem Raises.faultsFrom {c : Config.Opcodes} {s : State} {kind : FaultKind} {n : Nat} (h : Raises c s ⟨kind, some n⟩)
    (hr : s.status = .running) : FaultsFrom s kind s.fetchedOpcode n (stepWith c s) := by
  rw [stepWith_of_raises hr h]
  exact enterFault_faultsFrom s kind n

/-- Memory after reset holds no opcode of the machine's, so a run of an empty image stops at once (R171). -/
theorem raises_unknownOpcode_at_reset : Raises defaultOpcodes State.reset ⟨.unknownOpcode, some 0⟩ :=
  .decode (by decide) (by decide)

/-- Settles O1, field by field. -/
theorem resetLeavesTheStatedValues : Obligations.ResetLeavesTheStatedValues :=
  ⟨reset_reg_of_ne_sp, rfl, rfl, rfl, rfl, rfl, reset_memAt⟩

/-- Settles O2: PUSH decrements SP to 0xF3 and then stores there the register it names. -/
theorem resetStackPointerAndFirstPush : Obligations.ResetStackPointerAndFirstPush := by
  refine ⟨reset_reg_sp, rfl, fun r i s hi hsp => ?_⟩
  have hdec : s.decSp.reg sp = 0xF3 := by
    rw [decSp_reg, if_pos rfl, hsp, reset_reg_sp]
    decide
  refine ⟨_, exec_push hi, ?_, fun a ha => ?_, hdec⟩
  · rw [hdec]
    by_cases h : i = sp
    · subst h; simp [hsp, reset_reg_sp]
    · simp [h]
  · rw [hdec]
    rw [setPc_memAt, putByte_memAt, decSp_memAt]
    exact if_neg ha

/-- Settles O3: launching places the image on reset's memory, and an empty one leaves reset itself. -/
theorem launchCopiesTheImageVerbatim : Obligations.LaunchCopiesTheImageVerbatim := by
  refine ⟨reset_memAt, fun img hlen => ⟨_, launch_eq hlen, fun k hk => ?_, fun k hk => ?_, rfl⟩,
    _, launch_eq (by simp), ?_⟩
  · rw [load_memAt hlen, dif_pos hk]
  · rw [load_memAt hlen, dif_neg (by omega)]
  · exact raises_unknownOpcode_at_reset.faultsFrom rfl

/-- Settles O36. -/
theorem invariantHoldsAtReset : Obligations.InvariantHoldsAtReset := stateInv_reset

end Sys2Proof.Machine
end

section
/-! PROOFS. What a step writes: registers, pc, status, flag and output, each by the kind of the instruction at the pc
(spec/10_state.md R12, R15, R18, R19, R21). -/

namespace Sys2Proof.Machine

section
variable {c : Config.Opcodes} {s t s' : State} {k : OpKind} {z : Cause}

theorem eq_of_setReg_reg_ne {i j : RegIndex} {v : Int} (h : (s.setReg i v).reg j ≠ s.reg j) : j = i := by
  by_contra hne
  exact h (by rw [setReg_reg, if_neg hne])

/-- The "registers written" column of R12. -/
theorem Effect.writesReg {j : RegIndex} (h : Effect k s t) (hj : t.reg j ≠ s.reg j) :
    WritesReg k (s.memAt (s.pc + 1)) j := by
  cases k
  case hlt => subst h; exact hj rfl
  case cmp => obtain ⟨i, i', -, -, rfl⟩ := h; exact hj rfl
  case prn | jmp | jeq | jne => obtain ⟨i, -, rfl⟩ := h; exact hj rfl
  case mul | add => obtain ⟨i, i', hi, -, rfl⟩ := h; exact eq_of_setReg_reg_ne hj ▸ hi
  case ldi => obtain ⟨i, hi, rfl⟩ := h; exact eq_of_setReg_reg_ne hj ▸ hi
  case push | call => obtain ⟨i, -, rfl⟩ := h; exact eq_of_setReg_reg_ne hj
  case pop | ret =>
    obtain ⟨i, hi, rfl⟩ := h
    by_cases hsp : j = sp
    · exact .inr hsp
    · rw [setPc_reg, incSp_reg, if_neg hsp] at hj
      exact .inl (eq_of_setReg_reg_ne hj ▸ hi)

/-- Only a CMP of equal registers changes the flag, and it sets it. -/
theorem Effect.flag_cases (h : Effect k s t) : t.flag = s.flag ∨ k = .cmp ∧ t.flag = true ∧
    ∃ i j, Names (s.memAt (s.pc + 1)) i ∧ Names (s.memAt (s.pc + 2)) j ∧ s.reg i = s.reg j := by
  cases k
  case hlt => subst h; exact .inl rfl
  case mul | add => obtain ⟨i, j, -, -, rfl⟩ := h; exact .inl rfl
  case ldi | prn | push | pop | call | ret | jmp | jeq | jne => obtain ⟨i, -, rfl⟩ := h; exact .inl rfl
  case cmp =>
    obtain ⟨i, j, hi, hj, rfl⟩ := h
    by_cases heq : s.reg i = s.reg j
    · exact .inr ⟨rfl, by simp [flagAfterCompare, heq], i, j, hi, hj, heq⟩
    · exact .inl (by simp [flagAfterCompare, heq])

/-- Only PRN appends to the output, and what it appends is the register it names. -/
theorem Effect.out_cases (h : Effect k s t) : t.out = s.out ∨ k = .prn ∧
    ∃ i, Names (s.memAt (s.pc + 1)) i ∧ t.out = s.out ++ [s.reg i] := by
  cases k
  case hlt => subst h; exact .inl rfl
  case mul | add | cmp => obtain ⟨i, j, -, -, rfl⟩ := h; exact .inl rfl
  case prn => obtain ⟨i, hi, rfl⟩ := h; exact .inr ⟨rfl, i, hi, rfl⟩
  case ldi | push | pop | call | ret | jmp | jeq | jne => obtain ⟨i, -, rfl⟩ := h; exact .inl rfl

/-! ### Noninterference: what the checks and the effects do not read -/

theorem memAt_congr (hm : s'.mem = s.mem) (a : Nat) : s'.memAt a = s.memAt a := by
  simp only [State.memAt, hm]

theorem firstBadRegByte_congr (hpc : s'.pc = s.pc) (hm : s'.mem = s.mem) :
    firstBadRegByte k s' = firstBadRegByte k s := by
  simp only [firstBadRegByte, hpc, memAt_congr hm]

theorem Fetched.congr (hpc : s'.pc = s.pc) (hm : s'.mem = s.mem) (h : Fetched c s k) : Fetched c s' k := by
  simpa only [Fetched, hpc, memAt_congr hm] using h

/-- What a step raises depends on pc and memory alone. -/
theorem Raises.congr (hpc : s'.pc = s.pc) (hm : s'.mem = s.mem) (h : Raises c s z) : Raises c s' z := by
  cases h with
  | fetch h => rw [← hpc] at h ⊢; exact .fetch h
  | decode h hn => rw [← hpc, ← memAt_congr hm] at hn ⊢; exact .decode (hpc ▸ h) hn
  | operand k h hl he => exact .operand k (hpc ▸ h) (by rw [hpc, memAt_congr hm, hl]) (hpc ▸ he)
  | register k n hF hb => exact .register k n (hF.congr hpc hm) (by rw [firstBadRegByte_congr hpc hm, hb])

/-- The flag is read by JEQ and JNE alone; CMP keeps or sets it without reading it for anything else. -/
theorem Effect.setFlag (h : Effect k s t) (hjeq : k ≠ .jeq) (hjne : k ≠ .jne) (b : Bool) :
    ∃ u, Effect k (s.setFlag b) u ∧ u.setFlag t.flag = t := by
  cases k
  case jeq => exact absurd rfl hjeq
  case jne => exact absurd rfl hjne
  case hlt => subst h; exact ⟨_, rfl, rfl⟩
  case mul | add | cmp => obtain ⟨i, j, hi, hj, rfl⟩ := h; exact ⟨_, ⟨i, j, hi, hj, rfl⟩, rfl⟩
  case ldi | prn | push | pop | call | ret | jmp => obtain ⟨i, hi, rfl⟩ := h; exact ⟨_, ⟨i, hi, rfl⟩, rfl⟩

/-- The state with another output history. -/
def State.withOut (s : State) (o : List Byte) : State := { s with out := o }

@[simp] theorem withOut_pc (s : State) (o : List Byte) : (s.withOut o).pc = s.pc := rfl
@[simp] theorem withOut_mem (s : State) (o : List Byte) : (s.withOut o).mem = s.mem := rfl

/-- No effect reads the output: on any history it appends the same values and leaves the same rest. -/
theorem Effect.withOut (h : Effect k s t) :
    ∃ e, t.out = s.out ++ e ∧ ∀ o, Effect k (s.withOut o) (t.withOut (o ++ e)) := by
  have keep (ht : ∀ o, Effect k (s.withOut o) (t.withOut o)) (hout : t.out = s.out) :
      ∃ e, t.out = s.out ++ e ∧ ∀ o, Effect k (s.withOut o) (t.withOut (o ++ e)) :=
    ⟨[], by simp [hout], by simpa using ht⟩
  cases k
  case prn => obtain ⟨i, hi, rfl⟩ := h; exact ⟨[s.reg i], rfl, fun o => ⟨i, hi, rfl⟩⟩
  case hlt => subst h; exact keep (fun _ => rfl) rfl
  case mul | add | cmp => obtain ⟨i, j, hi, hj, rfl⟩ := h; exact keep (fun _ => ⟨i, j, hi, hj, rfl⟩) rfl
  case ldi | push | pop | call | ret | jmp | jeq | jne =>
    obtain ⟨i, hi, rfl⟩ := h
    exact keep (fun _ => ⟨i, hi, rfl⟩) rfl

end

/-- Settles O39: in each case of the step, by what the effect does with the flag. -/
theorem flagIsWrittenOnlyByCmpAndReadOnlyByBranches : Obligations.FlagIsWrittenOnlyByCmpAndReadOnlyByBranches := by
  refine ⟨rfl, fun s b => rfl, fun c s t h => ?_⟩
  have hr := running_of_stepWith h
  rcases cases_of_stepWith h with ⟨z, hz, rfl⟩ | ⟨k, hF, hb, hE⟩
  · exact ⟨id, fun hne => absurd rfl hne, fun _ _ b =>
      ⟨_, stepWith_of_raises hr (hz.congr (setFlag_pc s b) (setFlag_mem s b)), rfl⟩⟩
  · refine ⟨fun hs => ?_, fun hne => ?_, fun hjeq hjne b => ?_⟩
    · rcases hE.flag_cases with ht | ⟨-, ht, -⟩
      · rw [ht, hs]
      · exact ht
    · rcases hE.flag_cases with ht | ⟨rfl, -, hregs⟩
      · exact absurd ht hne
      · exact ⟨hF.opcode_eq, hregs⟩
    · rw [hF.opcode_eq] at hjeq hjne
      obtain ⟨u, hu, hut⟩ := hE.setFlag (fun e => hjeq (e ▸ rfl)) (fun e => hjne (e ▸ rfl)) b
      exact ⟨u, stepWith_of_effect hr (hF.congr (setFlag_pc s b) (setFlag_mem s b)) hb hu, hut⟩

/-- Settles O40: a fault appends nothing, and an effect appends the same on every history. -/
theorem outputIsAppendedOnlyByPrnAndNeverRead : Obligations.OutputIsAppendedOnlyByPrnAndNeverRead := by
  refine ⟨rfl, fun c s t h => ?_⟩
  have hr := running_of_stepWith h
  rcases cases_of_stepWith h with ⟨z, hz, rfl⟩ | ⟨k, hF, hb, hE⟩
  · refine ⟨.inl rfl, fun o => ⟨[], by simp, ?_⟩⟩
    rw [List.append_nil]
    exact stepWith_of_raises hr (hz.congr (withOut_pc s o) (withOut_mem s o))
  · constructor
    · rcases hE.out_cases with ht | ⟨rfl, hi⟩
      · exact .inl ht
      · exact .inr ⟨hF.opcode_eq, hi⟩
    · obtain ⟨e, he, hEo⟩ := hE.withOut
      exact fun o => ⟨e, he, stepWith_of_effect hr (hF.congr (withOut_pc s o) (withOut_mem s o)) hb (hEo o)⟩

/-- Settles O42: fault entry writes no register, and an effect only those of its kind's row. -/
theorem registersAreWrittenOnlyAsTheTableSays : Obligations.RegistersAreWrittenOnlyAsTheTableSays := by
  intro c s t j h hj
  rcases cases_of_stepWith h with ⟨z, -, rfl⟩ | ⟨k, hF, -, hE⟩
  · exact absurd rfl hj
  · exact ⟨k, hF.runningAt (running_of_stepWith h), hE.writesReg hj⟩

/-- A completed instruction does not end FAULTED. -/
theorem Effect.not_faulted {k : OpKind} {s t : State} (h : Effect k s t) (hr : s.status = .running) :
    t.status ≠ .faulted := by
  rw [h.status_eq, hr]
  split <;> decide

/-- Settles O43: the opcode at the pc is that of the kind whose effect the step has, and of no other kind. -/
theorem everyInstructionSetsThePcAsTheTableSays : Obligations.EveryInstructionSetsThePcAsTheTableSays := by
  intro c s t hc h
  rcases cases_of_stepWith h with ⟨z, -, rfl⟩ | ⟨k, hF, -, hE⟩
  · exact ⟨fun _ => rfl, fun hne => absurd rfl hne⟩
  · refine ⟨fun hf => absurd hf (hE.not_faulted (running_of_stepWith h)), fun _ l hl => ?_⟩
    cases opcodeOf_inj hc (hF.opcode_eq.symm.trans hl)
    exact hE.nextPcIs

/-- An HLT at the pc passes every check: it has no byte but its opcode. -/
theorem Raises.not_runningAt_hlt {c : Config.Opcodes} {s : State} {z : Cause} (hc : admissible c) (h : Raises c s z) :
    ¬ RunningAt s (opcodeOf c .hlt) := by
  intro hat
  have hlen : s.pc + 1 ≤ 256 := Nat.succ_le_succ hat.2.1
  exact h.not_passes (fetched_of_runningAt hc hat hlen) rfl

/-- Settles O44: fault entry makes FAULTED with a record, and of the effects HLT's alone writes the status. -/
theorem statusChangesOnlyByHltOrFault : Obligations.StatusChangesOnlyByHltOrFault := by
  intro c s t hc hnone h
  have hr := running_of_stepWith h
  rcases cases_of_stepWith h with ⟨z, hz, rfl⟩ | ⟨k, hF, -, hE⟩
  · exact ⟨by simp [hz.not_runningAt_hlt hc], by simp, fun _ hne => absurd rfl hne⟩
  · have hk : RunningAt s (opcodeOf c .hlt) ↔ k = .hlt :=
      ⟨fun hat => opcodeOf_inj hc (hF.opcode_eq.symm.trans hat.2.2), fun e => e ▸ hF.runningAt hr⟩
    rw [hk, hE.fault_eq, hE.status_eq, hnone, hr]
    by_cases e : k = .hlt <;> simp [e]

/-! ### Along a run -/

theorem out_extends_of_stepWith {c : Config.Opcodes} {s t : State} (h : stepWith c s = .next t) : s.out <+: t.out := by
  rcases cases_of_stepWith h with ⟨z, -, rfl⟩ | ⟨k, -, -, hE⟩
  · exact ⟨[], List.append_nil _⟩
  · obtain ⟨e, he, -⟩ := hE.withOut
    exact ⟨e, he.symm⟩

theorem stateInv_of_run {n : Nat} {s t : State} (hs : StateInv s) (h : Host.Core.run Sys2Proof.core n s = .next t) :
    StateInv t :=
  run_induction (P := fun s t => StateInv s → StateInv t) (fun _ => id)
    (fun s t _ hst ih hs => ih (everyStepKeepsTheInvariant defaultOpcodes s t hs hst)) n s t h hs

theorem out_extends_of_run {n : Nat} {s t : State} (h : Host.Core.run Sys2Proof.core n s = .next t) : s.out <+: t.out :=
  run_induction (P := fun s t => s.out <+: t.out) (fun _ => ⟨[], List.append_nil _⟩)
    (fun _ _ _ hst ih => (out_extends_of_stepWith hst).trans ih) n s t h

/-- Settles O50: the invariant holds at launch and along the run, and each step only appends to the output. -/
theorem launchedRunsKeepTheInvariantAndTheirOutput : Obligations.LaunchedRunsKeepTheInvariantAndTheirOutput :=
  fun _ _ _ _ _ _ hs ht hu => ⟨stateInv_of_run (stateInv_of_run (stateInv_of_launch hs) ht) hu, out_extends_of_run hu⟩

end Sys2Proof.Machine
end

section
/-! PROOFS. Memory: reads and writes at an address, which steps store and where, and that a store is seen by the next fetch
(spec/20_memory.md R31 to R33, R42). -/

namespace Sys2Proof.Machine

/-- Settles O5: inside memory the write is `putByte`, whose laws say what it changes. -/
theorem memoryReadGivesTheLastWrite : Obligations.MemoryReadGivesTheLastWrite := by
  intro s a v
  refine ⟨memRead_inside, fun h => ⟨_, memWrite_inside h, ?_, fun b hb => ?_, fun _ _ => rfl, rfl, rfl, ⟨rfl, rfl⟩, rfl⟩,
    fun h => ⟨memRead_outside h, memWrite_outside h⟩⟩
  · rw [memRead_inside h, putByte_memAt, if_pos rfl]
  · rw [putByte_memAt, if_neg hb]

section
variable {c : Config.Opcodes} {s t : State} {k : OpKind} {i : RegIndex} {a : Nat}

theorem eq_of_putByte_memAt_ne {b : Nat} {v : Byte} (h : (s.putByte b v).memAt a ≠ s.memAt a) : a = b := by
  by_contra hne
  exact h (by rw [putByte_memAt, if_neg hne])

/-- The "writes" column of R33. -/
theorem Effect.writesMem (h : Effect k s t) (ha : t.memAt a ≠ s.memAt a) :
    (k = .push ∨ k = .call) ∧ a = (s.reg sp - 1).toNat := by
  cases k
  case hlt => subst h; exact absurd rfl ha
  case mul | add | cmp => obtain ⟨i, j, -, -, rfl⟩ := h; exact absurd rfl ha
  case ldi | prn | pop | ret | jmp | jeq | jne => obtain ⟨i, -, rfl⟩ := h; exact absurd rfl ha
  case push | call =>
    obtain ⟨i, -, rfl⟩ := h
    have htop : a = (s.decSp.reg sp).toNat := eq_of_putByte_memAt_ne (s := s.decSp) ha
    rw [decSp_reg, if_pos rfl] at htop
    exact ⟨by simp, htop⟩

/-- A PUSH whose bytes lie in memory and whose operand names a register is carried out. -/
theorem stepWith_push (hc : admissible c) (hat : RunningAt s (opcodeOf c .push)) (hpc : s.pc ≤ 254)
    (hi : Names (s.memAt (s.pc + 1)) i) :
    stepWith c s = .next ((s.decSp.putByte (s.decSp.reg sp).toNat (s.decSp.reg i)).setPc (s.pc + 2)) :=
  stepWith_of_effect hat.1 (fetched_of_runningAt hc hat (Nat.add_le_add_right hpc 2)) (badRegByte_named hi) ⟨i, hi, rfl⟩

theorem stepWith_hlt (hc : admissible c) (hat : RunningAt s (opcodeOf c .hlt)) : stepWith c s = .next s.halt :=
  stepWith_of_effect hat.1 (fetched_of_runningAt hc hat (Nat.succ_le_succ hat.2.1)) rfl rfl

/-- The cell a PUSH of a register other than r7 stores into holds that register's value. -/
theorem push_memAt_top (p : Nat) (hi : i ≠ sp) :
    ((s.decSp.putByte (s.decSp.reg sp).toNat (s.decSp.reg i)).setPc p).memAt (s.reg sp - 1).toNat = s.reg i := by
  simp [hi]

end

/-- Settles O41: fault entry stores nothing, and of the effects only PUSH's and CALL's store, where SP then points. -/
theorem memoryIsWrittenOnlyByPushAndCall : Obligations.MemoryIsWrittenOnlyByPushAndCall := by
  intro c s t a h ha
  rcases cases_of_stepWith h with ⟨z, -, rfl⟩ | ⟨k, hF, -, hE⟩
  · exact absurd rfl ha
  · obtain ⟨rfl | rfl, htop⟩ := hE.writesMem ha
    · exact ⟨.inl hF.opcode_eq, htop⟩
    · exact ⟨.inr hF.opcode_eq, htop⟩

/-- Settles O47: the PUSH was decoded before it stores, so its own operand byte no longer matters to it, while the next fetch
reads the memory it leaves. -/
theorem storeIsSeenByTheNextFetch : Obligations.StoreIsSeenByTheNextFetch := by
  intro c s i hc hat hpc hi hsp
  have htop := push_memAt_top (s := s) (s.pc + 2) hsp
  refine ⟨_, stepWith_push hc hat (by omega) hi, rfl, fun hnext => ?_, fun hown => hown ▸ htop⟩
  rw [hnext] at htop
  have hpc' : s.pc + 2 ≤ 255 := by omega
  refine ⟨(fetchedOpcode_inside hpc').trans (congrArg some htop), fun hhlt => ?_⟩
  exact ⟨_, stepWith_hlt hc ⟨hat.1, hpc', htop.trans hhlt⟩, rfl, rfl⟩

end Sys2Proof.Machine
end

section
/-! PROOFS. Encoding: the decoder and the encoder are each other's inverse (spec/30_encoding.md R50 to R53, R59, R63). -/

namespace Sys2Proof

/-- A byte that is an opcode leaves the decoding to the operand bytes of its kind. -/
theorem decodeWith_cons_of_lookup {c : Config.Opcodes} {op : Byte} {k : OpKind} (h : lookup c op = some k)
    (tail : List Byte) : decodeWith c (op :: tail) = takeOperands k tail := by
  simp only [decodeWith, h]

/-- Settles O8: the opcode's lookup gives the instruction's kind, and its operand bytes then give it back. -/
theorem decodeOfEncodeGivesTheInstructionBack : Obligations.DecodeOfEncodeGivesTheInstructionBack := by
  intro c i rest hc
  calc decodeWith c (encodeWith c i ++ rest)
      = takeOperands (kindOf i) (operandBytes i ++ rest) := decodeWith_cons_of_lookup (lookup_opcodeOf hc (kindOf i)) _
    _ = .ok (i, rest) := takeOperands_operandBytes i rest

section
variable {bytes rest : List Byte} {i : Instr}

/-- The inversion of `takeOne`: there was a byte to take. -/
theorem takeOne_eq_ok {f : Byte → Instr} (h : takeOne f bytes = .ok (i, rest)) :
    ∃ b1, i = f b1 ∧ bytes = b1 :: rest := by
  cases bytes with
  | nil => cases h
  | cons b1 tail => cases h; exact ⟨b1, rfl, rfl⟩

/-- The inversion of `takeTwo`: there were two bytes to take. -/
theorem takeTwo_eq_ok {f : Byte → Byte → Instr} (h : takeTwo f bytes = .ok (i, rest)) :
    ∃ b1 b2, i = f b1 b2 ∧ bytes = b1 :: b2 :: rest := by
  match bytes, h with
  | b1 :: b2 :: _, rfl => exact ⟨b1, b2, rfl, rfl⟩

/-- The inversion of `takeOperands`: the instruction has the kind asked for and owns exactly the bytes taken. -/
theorem takeOperands_eq_ok {k : OpKind} (h : takeOperands k bytes = .ok (i, rest)) :
    kindOf i = k ∧ operandBytes i ++ rest = bytes := by
  cases k
  case hlt | ret => cases h; exact ⟨rfl, rfl⟩
  case prn | push | pop | call | jmp | jeq | jne =>
    obtain ⟨b1, rfl, rfl⟩ := takeOne_eq_ok h
    exact ⟨rfl, rfl⟩
  case ldi | mul | add | cmp =>
    obtain ⟨b1, b2, rfl, rfl⟩ := takeTwo_eq_ok h
    exact ⟨rfl, rfl⟩

/-- The inversion of the decoder: the first byte is the opcode of a kind whose operand bytes gave the instruction. -/
theorem decodeWith_eq_ok {c : Config.Opcodes} (h : decodeWith c bytes = .ok (i, rest)) :
    ∃ op k tail, bytes = op :: tail ∧ lookup c op = some k ∧ takeOperands k tail = .ok (i, rest) := by
  cases bytes with
  | nil => cases h
  | cons op tail =>
    cases hl : lookup c op with
    | none => simp [decodeWith, hl] at h
    | some k => exact ⟨op, k, tail, rfl, hl, (decodeWith_cons_of_lookup hl tail).symm.trans h⟩

end

/-- Settles O9: the opcode byte is that of the kind the lookup gave, and the operand bytes are those the instruction owns. -/
theorem encodeOfDecodeGivesTheBytesBack : Obligations.EncodeOfDecodeGivesTheBytesBack := by
  intro c bytes rest i h
  obtain ⟨op, k, tail, rfl, hl, ht⟩ := decodeWith_eq_ok h
  obtain ⟨hkind, hbytes⟩ := takeOperands_eq_ok ht
  calc encodeWith c i ++ rest
      = opcodeOf c (kindOf i) :: (operandBytes i ++ rest) := rfl
    _ = op :: tail := by rw [hkind, hbytes, opcodeOf_of_lookup hl]

/-- With the default opcode values an encoding decodes with nothing left over. -/
theorem decode_encode (i : Instr) : decode (encode i) = .ok (i, []) := by
  simpa [decode, encode] using
    decodeOfEncodeGivesTheInstructionBack defaultOpcodes i [] defaultOpcodes_admissible

/-- Settles O10: the encodings are read off the opcode map, and decoding them is the round trip. -/
theorem sourceEncodingsDecode : Obligations.SourceEncodingsDecode :=
  ⟨decode_encode (.ldi 0 8), rfl, decode_encode (.add 0 1), rfl, decode_encode (.prn 0), rfl, decode_encode .hlt, rfl⟩

end Sys2Proof
end

section
/-! PROOFS. The loop: lookup matches the whole byte, a step runs the instruction at the pc, when there is a next state, when a
step completes, and where a run ends HALTED (spec/40_fetch_decode_execute.md R70 to R81). -/

namespace Sys2Proof.Machine

section
variable {c : Config.Opcodes} {s t : State} {k : OpKind} {i : Instr}

/-- The lookup in both directions, for opcode values that are pairwise distinct (R72). -/
theorem lookup_eq_some_iff {op : Byte} (hc : admissible c) : lookup c op = some k ↔ opcodeOf c k = op :=
  ⟨opcodeOf_of_lookup, fun h => h ▸ lookup_opcodeOf hc k⟩

theorem lookup_eq_none_iff {op : Byte} : lookup c op = none ↔ ∀ k, opcodeOf c k ≠ op :=
  ⟨opcodeOf_ne_of_lookup, fun h => Option.eq_none_iff_forall_ne_some.mpr fun k hk => h k (opcodeOf_of_lookup hk)⟩

/-- Phases 1 to 3 find the instruction whose bytes the window begins with; the bytes after it do not matter. -/
theorem fetchDecode_of_fetchWindow {rest : List Byte} (hc : admissible c) (h : s.fetchWindow = encodeWith c i ++ rest) :
    s.fetchDecode c = .ok i := by
  rw [State.fetchDecode, h, decodeOfEncodeGivesTheInstructionBack c i rest hc]

/-- The instruction whose encoding stands at the pc is what a RUNNING state's step executes. -/
theorem stepWith_of_encoding (hc : admissible c) (hr : s.status = .running)
    (h : ∀ k (hk : k < (encodeWith c i).length), s.pc + k ≤ 255 ∧ s.memAt (s.pc + k) = (encodeWith c i)[k]) :
    stepWith c s = exec i s := by
  obtain ⟨rest, hw⟩ := fetchWindow_prefix (encodeWith_length_le c i) h
  exact stepWith_runs hr (fetchDecode_of_fetchWindow hc hw)

/-- A RUNNING state always has a next state: a fault of the hardware is one too (R80). -/
theorem next_of_running (c : Config.Opcodes) (hr : s.status = .running) : ∃ t, stepWith c s = .next t := by
  rcases step_cases c hr with ⟨z, -, ho⟩ | ⟨k, t, -, -, -, ho⟩
  · exact ⟨s.enterFault z, ho⟩
  · exact ⟨t, ho⟩

/-- Once every check has passed nothing can stop the instruction (R81). -/
theorem completes_of_fetched (hr : s.status = .running) (hF : Fetched c s k) (hb : firstBadRegByte k s = none) :
    ∃ t, stepWith c s = .next t ∧ t.status ≠ .faulted := by
  rcases step_cases c hr with ⟨z, hz, -⟩ | ⟨l, t, -, -, hE, ho⟩
  · exact absurd hb (hz.not_passes hF)
  · exact ⟨t, ho, hE.not_faulted hr⟩

/-! ### Where a run ends HALTED -/

/-- What holds along a run that began without a record: there is none before a fault, and a HALTED state stands on an HLT
byte. -/
def HaltedAtHlt (s : State) : Prop :=
  (s.status ≠ .faulted → s.fault = none) ∧ (s.status = .halted → s.pc ≤ 255 ∧ s.memAt s.pc = 0x01)

theorem haltedAtHlt_of_running (hr : s.status = .running) (hf : s.fault = none) : HaltedAtHlt s :=
  ⟨fun _ => hf, by simp [hr]⟩

theorem haltedAtHlt_enterFault (s : State) (z : Cause) : HaltedAtHlt (s.enterFault z) :=
  ⟨by simp, by simp⟩

/-- Of the effects only HLT's makes HALTED, and it moves neither the pc nor a byte of memory. -/
theorem Effect.haltedAtHlt (h : Effect k s t) (hF : Fetched c s k) (hr : s.status = .running) (hf : s.fault = none) :
    HaltedAtHlt t := by
  refine ⟨fun _ => h.fault_eq.trans hf, fun ht => ?_⟩
  have hk : k = .hlt := by
    by_contra hne
    simp [h.status_eq, hne, hr] at ht
  subst hk
  cases h
  exact ⟨hF.1, hF.opcode_eq⟩

theorem haltedAtHlt_of_stepWith (hs : HaltedAtHlt s) (h : stepWith c s = .next t) : HaltedAtHlt t := by
  have hr := running_of_stepWith h
  rcases cases_of_stepWith h with ⟨z, -, rfl⟩ | ⟨k, hF, -, hE⟩
  · exact haltedAtHlt_enterFault s z
  · obtain ⟨hrecord, -⟩ := hs
    exact hE.haltedAtHlt hF hr (hrecord (by simp [hr]))

theorem haltedAtHlt_of_run {n : Nat} (hs : HaltedAtHlt s) (h : Host.Core.run Sys2Proof.core n s = .next t) :
    HaltedAtHlt t :=
  run_induction (P := fun s t => HaltedAtHlt s → HaltedAtHlt t) (fun _ => id)
    (fun _ _ _ hst ih hs => ih (haltedAtHlt_of_stepWith hs hst)) n s t h hs

end

/-- Settles O7: a kind found has the byte for its opcode, and distinct opcodes make every kind found. -/
theorem lookupYieldsTheOneKindWithThatOpcode : Obligations.LookupYieldsTheOneKindWithThatOpcode :=
  fun _ _ hc => ⟨fun _ => lookup_eq_some_iff hc, lookup_eq_none_iff⟩

/-- Settles O14: the step of a RUNNING state is one of the cases that have a next state; the other two answer a fault. -/
theorem stepHasANextStateExactlyWhenRunning : Obligations.StepHasANextStateExactlyWhenRunning :=
  fun c _ => ⟨⟨fun ⟨_, h⟩ => running_of_stepWith h, next_of_running c⟩, stepWith_halted, stepWith_faulted⟩

/-- Settles O35: an end that is not FAULTED is an effect, whose checks have passed; passed checks exclude every cause. -/
theorem stepCompletesExactlyWhenEveryCheckPasses : Obligations.StepCompletesExactlyWhenEveryCheckPasses := by
  intro c s hc hr
  constructor
  · rintro ⟨t, h, hne⟩
    rcases cases_of_stepWith h with ⟨z, -, rfl⟩ | ⟨k, hF, hb, -⟩
    · exact absurd rfl hne
    · exact ⟨k, hF.runningAt hr, hF.2.2, hb⟩
  · rintro ⟨k, hat, hlen, hb⟩
    exact completes_of_fetched hr (fetched_of_runningAt hc hat hlen) hb

/-- Settles O51: the invariant `HaltedAtHlt` holds at the start and along the run. -/
theorem haltedRunEndsAtAnHltByte : Obligations.HaltedRunEndsAtAnHltByte := by
  rintro n s t hr hf ⟨hrun, hhalt⟩
  obtain ⟨hrecord, hbyte⟩ := haltedAtHlt_of_run (haltedAtHlt_of_running hr hf) hrun
  exact ⟨hrecord (by simp [hhalt]), hbyte hhalt⟩

/-- Settles O12: the fetch window begins with the encoding, and decoding gives its instruction back. -/
theorem stepExecutesTheInstructionAtThePc : Obligations.StepExecutesTheInstructionAtThePc :=
  ⟨fun _ _ _ => stepWith_of_encoding, fun _ _ => stepWith_of_encoding defaultOpcodes_admissible⟩

end Sys2Proof.Machine
end

section
/-! PROOFS. LDI, PRN and HLT (spec/41_load_print_halt.md R90 to R92), after the two fault clauses every instruction's statement
has: bytes past the end of memory, and a bad register byte. -/

namespace Sys2Proof.Machine

/-! ### The fault clauses of an instruction's statement -/

/-- No kind of instruction can be fetched past the end of memory (R142). -/
theorem faultsPastEnd (k : OpKind) : FaultsPastEnd k := by
  intro c s hc hat hend
  obtain ⟨hr, hpc, hop⟩ := hat
  have hraise : Raises c s ⟨.addressFault, some 256⟩ :=
    .operand k hpc (by rw [hop, lookup_opcodeOf hc]) hend
  have hopcode : s.fetchedOpcode = some (opcodeOf c k) := by rw [fetchedOpcode_inside hpc, hop]
  exact hopcode ▸ hraise.faultsFrom hr

/-- An instruction whose meaning enters RegisterIndexFault with the byte has the observable fault of R143. -/
theorem faultsOnRegByte_of_exec {i : Instr} {b : Byte}
    (h : ∀ s, exec i s = .next (s.enterFault ⟨.registerIndexFault, some b.toNat⟩)) : FaultsOnRegByte i b := by
  intro s
  rw [h s]
  exact enterFault_faultsFrom s .registerIndexFault b.toNat

/-! ### The three instructions -/

/-- Settles O15: the completed LDI is one register write and a pc move. -/
theorem ldiLoadsTheImmediate : Obligations.LdiLoadsTheImmediate := by
  refine ⟨fun s r imm i hi => ⟨_, exec_ldi hi, ?result, rfl, fun j hj => ?frame, fun _ => rfl, rfl, rfl, rfl, rfl⟩,
    fun r imm hbad => faultsOnRegByte_of_exec fun _ => exec_ldi_bad hbad, faultsPastEnd .ldi, fun _ _ _ => rfl⟩
  case result => simp
  case frame =>
    have hne : j ≠ i := by simpa using hj
    simp [hne]

/-- Settles O16: the completed PRN is one append to the output and a pc move. -/
theorem prnEmitsTheRegister : Obligations.PrnEmitsTheRegister :=
  ⟨fun _ _ _ hi => ⟨_, exec_prn hi, rfl, rfl, fun _ _ => rfl, fun _ => rfl, rfl, rfl, rfl⟩,
    fun _ hbad => faultsOnRegByte_of_exec fun _ => exec_prn_bad hbad, faultsPastEnd .prn, fun _ _ => rfl⟩

/-- Settles O17: HLT's meaning writes the status alone, a step at its byte is that meaning, and HALTED has no step. -/
theorem hltHaltsAndHoldsThePc : Obligations.HltHaltsAndHoldsThePc :=
  ⟨fun s => ⟨s.halt, exec_hlt, rfl, rfl, rfl, fun _ _ => rfl, fun _ => rfl, rfl, rfl⟩,
    fun _ s hc hat => ⟨s.halt, stepWith_hlt hc hat, rfl, rfl, stepWith_halted (halt_status s)⟩, fun _ => rfl⟩

end Sys2Proof.Machine
end

section
/-! PROOFS. ADD, MUL and CMP (spec/42_alu.md R101 to R103). Their fault clauses are one argument over `regIdx2`, the check of a
pair of register bytes; ADD and MUL complete by one register write, CMP by one write of the flag. -/

namespace Sys2Proof.Machine

/-! ### The fault clauses of a two-register instruction -/

section
variable {ins : Byte → Byte → Instr}
  (hbad : ∀ (ra rb : Byte) (s : State) (z : Cause), regIdx2 ra rb = .error z →
    exec (ins ra rb) s = .next (s.enterFault z))
include hbad

/-- A bad first byte is reported whatever the second is (R148). -/
theorem faultsOnRegByte_first (ra rb : Byte) (ha : 7 < ra.toNat) : FaultsOnRegByte (ins ra rb) ra :=
  faultsOnRegByte_of_exec fun s => hbad ra rb s _ (regIdx2_bad_first ha)

/-- A bad second byte is reported when the first names a register (R148). -/
theorem faultsOnRegByte_second (ra rb : Byte) (ha : ra.toNat ≤ 7) (hb : 7 < rb.toNat) :
    FaultsOnRegByte (ins ra rb) rb := by
  obtain ⟨i, hi⟩ : ∃ i : RegIndex, ra.toNat = i.val := (regByte_cases ra).resolve_right (by omega)
  exact faultsOnRegByte_of_exec fun s => hbad ra rb s _ (regIdx2_bad_second hi hb)

end

/-! ### What the ALU's write back leaves -/

/-- A register given a natural number keeps its low 8 bits (R104). -/
theorem setReg_reg_toNat (s : State) (i : RegIndex) (n : Nat) : ((s.setReg i n).reg i).toNat = n % 256 := by
  rw [setReg_reg, if_pos rfl, trunc8_natCast, BitVec.toNat_ofNat]

theorem setReg_sameRegsBut (s : State) (i : RegIndex) (v : Int) : SameRegsBut [i] s (s.setReg i v) := by
  intro j hj
  rw [setReg_reg, if_neg (by simpa using hj)]

/-- The first row of R103's truth table. -/
theorem flagAfterCompare_of_eq {a b : Byte} (old : Bool) (h : a = b) : flagAfterCompare old (a == b) = true := by
  simp [flagAfterCompare, h]

/-- The other rows: the flag is sticky (R18). -/
theorem flagAfterCompare_of_ne {a b : Byte} (old : Bool) (h : a ≠ b) : flagAfterCompare old (a == b) = old := by
  simp [flagAfterCompare, h]

/-! ### The three instructions -/

/-- Settles O18: the completed ADD is one register write of the exact sum, which the register narrows, and a pc move. -/
theorem addStoresTheSumModulo256 : Obligations.AddStoresTheSumModulo256 := by
  refine ⟨fun s ra rb i j hi hj => ⟨_, exec_add hi hj, ?sum, rfl, setReg_sameRegsBut s i _, fun _ => rfl, rfl, rfl, rfl, rfl⟩,
    faultsOnRegByte_first fun _ _ _ _ => exec_add_bad, faultsOnRegByte_second fun _ _ _ _ => exec_add_bad,
    faultsPastEnd .add, fun _ _ _ => rfl⟩
  case sum => exact_mod_cast setReg_reg_toNat s i ((s.reg i).toNat + (s.reg j).toNat)

/-- Settles O19: the completed MUL is one register write of the exact product, which the register narrows, and a pc move. -/
theorem mulStoresTheProductModulo256 : Obligations.MulStoresTheProductModulo256 := by
  refine ⟨fun s ra rb i j hi hj => ⟨_, exec_mul hi hj, ?product, rfl, setReg_sameRegsBut s i _, fun _ => rfl, rfl, rfl, rfl, rfl⟩,
    faultsOnRegByte_first fun _ _ _ _ => exec_mul_bad, faultsOnRegByte_second fun _ _ _ _ => exec_mul_bad,
    faultsPastEnd .mul, fun _ _ _ => rfl⟩
  case product => exact_mod_cast setReg_reg_toNat s i ((s.reg i).toNat * (s.reg j).toNat)

/-- Settles O20: the completed CMP is one write of the flag, by the sticky rule, and a pc move. -/
theorem cmpSetsTheFlagOnEqualityOnly : Obligations.CmpSetsTheFlagOnEqualityOnly :=
  ⟨fun s _ _ _ _ hi hj => ⟨_, exec_cmp hi hj, flagAfterCompare_of_eq s.flag, flagAfterCompare_of_ne s.flag, rfl,
      fun _ _ => rfl, fun _ => rfl, rfl, rfl, rfl⟩,
    faultsOnRegByte_first fun _ _ _ _ => exec_cmp_bad, faultsOnRegByte_second fun _ _ _ _ => exec_cmp_bad,
    faultsPastEnd .cmp, fun _ _ _ => rfl⟩

end Sys2Proof.Machine
end

section
/-! PROOFS. PUSH and POP (spec/43_stack.md R111 to R113). PUSH is one SP decrement and one store where SP then points, POP one
register write and one SP increment. A POP after a PUSH of one register writes that register's own value back, r7 included, so
that of the registers only SP moves, down and up again. -/

namespace Sys2Proof.Machine

section
variable (s : State) (i j : RegIndex) (a : Nat) (v : Byte)

/-! ### What moving SP, a store and a register write each leave -/

theorem decSp_reg_sp : s.decSp.reg sp = s.reg sp - 1 := by
  rw [decSp_reg, if_pos rfl]

theorem decSp_sameRegsBut : SameRegsBut [sp] s s.decSp := by
  intro j hj
  rw [decSp_reg, if_neg (by simpa using hj)]

theorem putByte_memAt_same : (s.putByte a v).memAt a = v := by
  rw [putByte_memAt, if_pos rfl]

theorem putByte_sameMemBut : SameMemBut a s (s.putByte a v) := by
  intro b hb
  rw [putByte_memAt, if_neg hb]

/-- A register given its own value leaves every register as it was. -/
theorem setReg_own_reg : (s.setReg i (s.reg i).toNat).reg j = s.reg j := by
  rw [setReg_reg, trunc8_byte]
  split
  · next h => rw [h]
  · rfl

/-- An increment of SP undoes a decrement: both are modulo 256. -/
theorem incSp_reg_of_decSp {t : State} (h : ∀ j, t.reg j = s.decSp.reg j) : t.incSp.reg j = s.reg j := by
  rw [incSp_reg, h, h, decSp_reg_sp, BitVec.sub_add_cancel]
  split
  · next hj => rw [hj]
  · next hj => rw [decSp_reg, if_neg hj]

/-! ### What POP does to the registers -/

theorem pop_reg_of_ne_sp (hi : i ≠ sp) : (s.setReg i v.toNat).incSp.reg i = v := by
  rw [incSp_reg, if_neg hi, setReg_reg, if_pos rfl, trunc8_byte]

theorem pop_reg_sp_of_ne_sp (hi : i ≠ sp) : (s.setReg i v.toNat).incSp.reg sp = s.reg sp + 1 := by
  rw [incSp_reg, if_pos rfl, setReg_reg, if_neg hi.symm]

/-- POP of r7 increments the byte it popped (R112). -/
theorem pop_sp_reg_sp : (s.setReg sp v.toNat).incSp.reg sp = v + 1 := by
  rw [incSp_reg, if_pos rfl, setReg_reg, if_pos rfl, trunc8_byte]

theorem pop_sameRegsBut : SameRegsBut [i, sp] s (s.setReg i v.toNat).incSp := by
  intro j hj
  obtain ⟨hi, hsp⟩ : j ≠ i ∧ j ≠ sp := by simpa using hj
  rw [incSp_reg, if_neg hsp, setReg_reg, if_neg hi]

end

/-- Settles O21: the store is the only write of memory and the decrement the only write of a register. -/
theorem pushStoresAtTheDecrementedStackPointer : Obligations.PushStoresAtTheDecrementedStackPointer := by
  refine ⟨fun s r i hi => ⟨_, exec_push hi, decSp_reg_sp s, rfl, fun a ha => ?store, decSp_sameRegsBut s, rfl, rfl, rfl, rfl⟩,
    fun _ hbad => faultsOnRegByte_of_exec fun _ => exec_push_bad hbad, faultsPastEnd .push, fun _ _ => rfl⟩
  case store =>
    subst ha
    exact ⟨(putByte_memAt_same s.decSp _ _).trans (decSp_reg s i), putByte_sameMemBut s.decSp _ _⟩

/-- Settles O22: r7 is the one register whose popped value the increment then changes. -/
theorem popLoadsFromTheStackPointer : Obligations.PopLoadsFromTheStackPointer := by
  refine ⟨fun s r i hi => ⟨_, exec_pop hi, fun hne => ?other, fun hsp => ?r7, rfl, pop_sameRegsBut s i _, fun _ => rfl,
      rfl, rfl, rfl, rfl⟩,
    fun _ hbad => faultsOnRegByte_of_exec fun _ => exec_pop_bad hbad, faultsPastEnd .pop, fun _ _ => rfl⟩
  case other => exact ⟨pop_reg_of_ne_sp s i _ hne, pop_reg_sp_of_ne_sp s i _ hne⟩
  case r7 =>
    subst hsp
    exact pop_sp_reg_sp s _

/-- Settles O45: the byte POP finds at SP is the register's own value at that point, so writing it back changes no register,
and the increment then undoes the decrement. -/
theorem pushThenPopRestoresEveryRegister : Obligations.PushThenPopRestoresEveryRegister := by
  intro s r i hi
  rw [← decSp_reg s i, ← decSp_reg_sp s]
  refine ⟨_, _, exec_push hi, exec_pop hi, fun j _ => ?regs, rfl, putByte_sameMemBut s.decSp _ _,
    putByte_memAt_same s.decSp _ _, rfl, rfl, rfl, rfl⟩
  case regs =>
    simp only [setPc_reg, setPc_memAt, putByte_reg, putByte_memAt_same]
    exact incSp_reg_of_decSp s j fun j => setReg_own_reg _ i j

end Sys2Proof.Machine
end

section
/-! PROOFS. CALL, RET, JMP, JEQ and JNE (spec/44_control_transfer.md R121 to R127). CALL is PUSH's decrement and store with the
return address for the value stored, RET is POP's register write and increment with the value for the new pc; the other three
move the pc alone. -/

namespace Sys2Proof.Machine

/-! ### JMP and the branches -/

/-- Settles O25: the completed JMP is a pc move. -/
theorem jmpGoesToTheRegister : Obligations.JmpGoesToTheRegister :=
  ⟨fun _ _ _ hi => ⟨_, exec_jmp hi, rfl, fun _ _ => rfl, fun _ => rfl, rfl, rfl, rfl, rfl⟩,
    fun _ hbad => faultsOnRegByte_of_exec fun _ => exec_jmp_bad hbad, faultsPastEnd .jmp, fun _ _ => rfl⟩

/-- Settles O26: the completed JEQ is a pc move, to the register when the flag is set. -/
theorem jeqBranchesWhenTheFlagIsSet : Obligations.JeqBranchesWhenTheFlagIsSet :=
  ⟨fun _ _ _ hi => ⟨_, exec_jeq hi, fun hset => if_pos hset, fun hclear => if_neg (ne_true_of_eq_false hclear),
      fun _ _ => rfl, fun _ => rfl, rfl, rfl, rfl, rfl⟩,
    fun _ hbad => faultsOnRegByte_of_exec fun _ => exec_jeq_bad hbad, faultsPastEnd .jeq, fun _ _ => rfl⟩

/-- Settles O27: the completed JNE is a pc move, to the register when the flag is clear. -/
theorem jneBranchesWhenTheFlagIsClear : Obligations.JneBranchesWhenTheFlagIsClear :=
  ⟨fun _ _ _ hi => ⟨_, exec_jne hi, fun hclear => if_neg (ne_true_of_eq_false hclear), fun hset => if_pos hset,
      fun _ _ => rfl, fun _ => rfl, rfl, rfl, rfl, rfl⟩,
    fun _ hbad => faultsOnRegByte_of_exec fun _ => exec_jne_bad hbad, faultsPastEnd .jne, fun _ _ => rfl⟩

/-- Settles O28: the two branches test one flag of one state for opposite values. -/
theorem jeqAndJneAreComplements : Obligations.JeqAndJneAreComplements := by
  intro s r i hi
  obtain ⟨t, ht, jeq_set, jeq_clear, -⟩ := jeqBranchesWhenTheFlagIsSet.1 s r i hi
  obtain ⟨u, hu, jne_clear, jne_set, -⟩ := jneBranchesWhenTheFlagIsClear.1 s r i hi
  refine ⟨t, u, ht, hu, ?_⟩
  cases hf : s.flag with
  | true => exact .inl ⟨rfl, jeq_set hf, jne_set hf⟩
  | false => exact .inr ⟨rfl, jeq_clear hf, jne_clear hf⟩

/-! ### CALL and RET -/

/-- Settles O23: the store is the only write of memory and the decrement the only write of a register, made before the target
register is read. -/
theorem callPushesTheReturnAddressAndJumps : Obligations.CallPushesTheReturnAddressAndJumps := by
  refine ⟨fun s r i hi => ⟨_, exec_call hi, decSp_reg_sp s, fun hne => ?other, fun hsp => ?r7, fun a ha => ?store,
      decSp_sameRegsBut s, rfl, rfl, rfl, rfl⟩,
    fun _ hbad => faultsOnRegByte_of_exec fun _ => exec_call_bad hbad, faultsPastEnd .call, fun _ _ => rfl⟩
  case other => rw [setPc_pc, decSp_reg, if_neg hne]
  case r7 => rw [setPc_pc, hsp, decSp_reg_sp]
  case store =>
    subst ha
    refine ⟨?_, putByte_sameMemBut s.decSp _ _⟩
    rw [setPc_memAt, putByte_memAt_same, BitVec.toNat_ofNat]

/-- Settles O24: the register write and the increment are POP's, and the byte written is also the new pc. -/
theorem retReturnsAndWritesThePeekedRegister : Obligations.RetReturnsAndWritesThePeekedRegister := by
  refine ⟨fun s i hp hi => ⟨_, exec_ret hp hi, rfl, fun hne => ?other, fun hsp => ?r7, pop_sameRegsBut s i _, fun _ => rfl,
      rfl, rfl, rfl, rfl⟩,
    fun s hp hbad => ?peek, faultsPastEnd .ret, fun _ => rfl⟩
  case other => exact ⟨pop_reg_of_ne_sp s i _ hne, pop_reg_sp_of_ne_sp s i _ hne⟩
  case r7 =>
    subst hsp
    exact pop_sp_reg_sp s _
  case peek =>
    rw [exec_ret_bad hp hbad]
    exact enterFault_faultsFrom s .registerIndexFault _

/-- Settles O46: the byte RET finds at SP is the one CALL stored, the return address modulo 256, and RET's increment of SP undoes
CALL's decrement. -/
theorem retUndoesItsCall : Obligations.RetUndoesItsCall := by
  intro s r i hi
  obtain ⟨t, ht, htsp, -, -, hstore, -⟩ := callPushesTheReturnAddressAndJumps.1 s r i hi
  refine ⟨t, ht, fun u j husp hucell hp hj => ?_⟩
  obtain ⟨v, hv, hvpc, hother, -, hregs, -⟩ := retReturnsAndWritesThePeekedRegister.1 u j hp hj
  have hreturn : v.pc = (s.pc + 2) % 256 := by
    rw [hvpc, husp, hucell]
    exact (hstore _ (by rw [htsp, decSp_reg_sp])).1
  refine ⟨v, hv, by omega, by omega, fun hne => ?_, hregs⟩
  obtain ⟨hvj, hvsp⟩ := hother hne
  exact ⟨by rw [hvsp, husp, htsp, BitVec.sub_add_cancel], by rw [hvj, hvpc]⟩

end Sys2Proof.Machine
end

section
/-! PROOFS. The faults (spec/60_exceptions.md R141 to R148): what a recorded cause says of the state and what state raises it,
kind by kind, and that the record is the step's own. At the end, what the tracer sees (R153). -/

namespace Sys2Proof.Machine

section
variable {c : Config.Opcodes} {s t : State} {kind : FaultKind} {info : Option Nat}

/-! ### When each cause is raised -/

/-- R141. -/
theorem raises_unknownOpcode_iff : Raises c s ⟨.unknownOpcode, info⟩ ↔
    (s.pc ≤ 255 ∧ ∀ k, opcodeOf c k ≠ s.memAt s.pc) ∧ info = some (s.memAt s.pc).toNat := by
  constructor
  · intro h
    cases h with
    | decode hpc hl => exact ⟨⟨hpc, lookup_eq_none_iff.mp hl⟩, rfl⟩
  · rintro ⟨⟨hpc, hop⟩, rfl⟩
    exact .decode hpc (lookup_eq_none_iff.mpr hop)

/-- R142: by the fetch, or by an operand or peeked byte past the end. -/
theorem raises_addressFault_iff (hc : admissible c) (hr : s.status = .running) : Raises c s ⟨.addressFault, info⟩ ↔
    255 < s.pc ∧ info = some s.pc ∨
    (∃ k, RunningAt s (opcodeOf c k) ∧ 256 < s.pc + formatReads (formatOf k)) ∧ info = some 256 := by
  constructor
  · intro h
    cases h with
    | fetch hpc => exact .inl ⟨hpc, rfl⟩
    | operand k hpc hl hend => exact .inr ⟨⟨k, ⟨hr, hpc, (opcodeOf_of_lookup hl).symm⟩, hend⟩, rfl⟩
  · rintro (⟨hpc, rfl⟩ | ⟨⟨k, ⟨-, hpc, hop⟩, hend⟩, rfl⟩)
    · exact .fetch hpc
    · exact .operand k hpc ((lookup_eq_some_iff hc).mpr hop.symm) hend

/-- R143. -/
theorem raises_registerIndexFault_iff {n : Nat} (hc : admissible c) (hr : s.status = .running) :
    Raises c s ⟨.registerIndexFault, some n⟩ ↔
    ∃ k, RunningAt s (opcodeOf c k) ∧ s.pc + formatReads (formatOf k) ≤ 256 ∧ firstBadRegByte k s = some n := by
  constructor
  · intro h
    cases h with
    | register k _ hF hb =>
      have hat := hF.runningAt hr
      obtain ⟨-, -, hlen⟩ := hF
      exact ⟨k, hat, hlen, hb⟩
  · rintro ⟨k, hat, hlen, hb⟩
    exact .register k n (fetched_of_runningAt hc hat hlen) hb

/-- The cause without an offending value, UnsupportedAluOp, is raised by no step (R144). -/
theorem Raises.exists_info {z : Cause} (h : Raises c s z) : ∃ kind n, z = ⟨kind, some n⟩ := by
  cases h with
  | fetch | decode | operand | register => exact ⟨_, _, rfl⟩

/-! ### The record a step leaves -/

theorem RunningAt.fetchedOpcode_eq {op : Byte} (h : RunningAt s op) : s.fetchedOpcode = some op := by
  obtain ⟨-, hpc, hop⟩ := h
  rw [fetchedOpcode_inside hpc, hop]

/-- A record that was not there before is fault entry's, from the cause raised. -/
theorem raises_of_record {r : FaultRecord} (hf : s.fault = none) (h : stepWith c s = .next t) (hrec : t.fault = some r) :
    ∃ z, Raises c s z ∧ r = ⟨z.kind, s.fetchedOpcode, s.pc, z.info⟩ := by
  rcases cases_of_stepWith h with ⟨z, hz, rfl⟩ | ⟨k, -, -, hE⟩
  · exact ⟨z, hz, (Option.some.inj hrec).symm⟩
  · rw [hE.fault_eq, hf] at hrec
    cases hrec

/-- A record of this opcode and pc stands for its cause, in both directions. -/
theorem records_iff_raises (hr : s.status = .running) (hf : s.fault = none) :
    (∃ t, stepWith c s = .next t ∧ t.fault = some ⟨kind, s.fetchedOpcode, s.pc, info⟩) ↔ Raises c s ⟨kind, info⟩ := by
  constructor
  · rintro ⟨t, h, hrec⟩
    obtain ⟨⟨kind', info'⟩, hz, e⟩ := raises_of_record hf h hrec
    cases e
    exact hz
  · exact fun hz => ⟨_, stepWith_of_raises hr hz, rfl⟩

theorem recordsKind_iff_raises (hr : s.status = .running) (hf : s.fault = none) :
    (∃ t r, stepWith c s = .next t ∧ t.fault = some r ∧ r.kind = kind) ↔ ∃ info, Raises c s ⟨kind, info⟩ := by
  constructor
  · rintro ⟨t, r, h, hrec, rfl⟩
    obtain ⟨z, hz, rfl⟩ := raises_of_record hf h hrec
    exact ⟨z.info, hz⟩
  · rintro ⟨info, hz⟩
    exact ⟨_, _, stepWith_of_raises hr hz, rfl, rfl⟩

/-- The observable fault of R141. -/
theorem faultsFrom_of_unknownOpcode (hr : s.status = .running) (hpc : s.pc ≤ 255)
    (hop : ∀ k, opcodeOf c k ≠ s.memAt s.pc) :
    FaultsFrom s .unknownOpcode (some (s.memAt s.pc)) (s.memAt s.pc).toNat (stepWith c s) :=
  fetchedOpcode_inside hpc ▸ (raises_unknownOpcode_iff.mpr ⟨⟨hpc, hop⟩, rfl⟩).faultsFrom hr

end

/-- Settles O30: each clause is one cause's condition, and the causes exclude each other in phase order. -/
theorem firstFaultInPhaseOrderIsReported : Obligations.FirstFaultInPhaseOrderIsReported := by
  refine fun c s hc hr => ⟨fun hpc => ?fetch, faultsFrom_of_unknownOpcode hr, fun k => faultsPastEnd k c s hc,
    fun k n hat hlen hb => ?register⟩
  case fetch => exact fetchedOpcode_outside hpc ▸ (Raises.fetch hpc).faultsFrom hr
  case register =>
    exact hat.fetchedOpcode_eq ▸ ((raises_registerIndexFault_iff hc hr).mpr ⟨k, hat, hlen, hb⟩).faultsFrom hr

/-- Settles O31: only fault entry ends FAULTED, and it leaves all but status and record. -/
theorem faultingStepChangesOnlyStatusAndRecord : Obligations.FaultingStepChangesOnlyStatusAndRecord := by
  intro c s t h hfaulted
  have hr := running_of_stepWith h
  refine ⟨?_, stepWith_faulted hfaulted⟩
  rcases cases_of_stepWith h with ⟨z, hz, -⟩ | ⟨k, -, -, hE⟩
  · obtain ⟨kind, n, rfl⟩ := hz.exists_info
    exact ⟨kind, n, hz.faultsFrom hr⟩
  · exact absurd hfaulted (hE.not_faulted hr)

/-- Settles O32: the record has the kind exactly when the decode phase raises it. -/
theorem unknownOpcodeExactlyForBytesOutsideTheThirteen : Obligations.UnknownOpcodeExactlyForBytesOutsideTheThirteen := by
  refine fun c s hr hf => ⟨?_, faultsFrom_of_unknownOpcode hr⟩
  rw [recordsKind_iff_raises hr hf]
  simp only [raises_unknownOpcode_iff, exists_and_left, exists_eq, and_true]

/-- Settles O33: the fetch can raise it at 256 only, the pc being at most that, and the other phases report 256. -/
theorem addressFaultExactlyAtTheEndOfMemory : Obligations.AddressFaultExactlyAtTheEndOfMemory := by
  intro c s hc hr hf hpc
  have hfetch : 255 < s.pc ↔ s.pc = 256 := by omega
  refine ⟨?_, fun t r h hrec hkind => ?_⟩
  · rw [recordsKind_iff_raises hr hf]
    simp only [raises_addressFault_iff hc hr, exists_or, exists_and_left, exists_eq, and_true, hfetch]
  · obtain ⟨⟨kind, info⟩, hz, rfl⟩ := raises_of_record hf h hrec
    cases hkind
    rcases (raises_addressFault_iff hc hr).mp hz with ⟨hout, rfl⟩ | ⟨-, rfl⟩
    · rw [hfetch.mp hout]
    · rfl

/-- Settles O34: the record is this one exactly when the register check raises its cause. -/
theorem registerIndexFaultExactlyForABadRegisterByte : Obligations.RegisterIndexFaultExactlyForABadRegisterByte :=
  fun _ _ _ hc hr hf => (raises_registerIndexFault_iff hc hr).symm.trans (records_iff_raises hr hf).symm

/-! ### The tracer's view -/

theorem traceByte_eq_iff (s t : State) (a : Nat) :
    s.traceByte a = t.traceByte a ↔ (a ≤ 255 → s.memAt a = t.memAt a) := by
  unfold State.traceByte
  split
  · next h => simp [Nat.le_of_lt_succ h]
  · next h => simp [show ¬ a ≤ 255 from fun h' => h (Nat.lt_succ_of_le h')]

theorem regs_toList_eq_iff (s t : State) : s.regs.toList = t.regs.toList ↔ SameRegsBut [] s t := by
  constructor
  · intro h j _
    rw [State.reg, State.reg, Vector.toList_inj.mp h]
  · intro h
    rw [Vector.toList_inj]
    exact Vector.ext fun i hi => (h ⟨i, hi⟩ (by simp)).symm

/-- The view field by field, its window byte by byte. -/
theorem trace_eq_iff (s t : State) : s.trace = t.trace ↔
    s.pc = t.pc ∧ (∀ k, k ≤ 2 → s.traceByte (s.pc + k) = t.traceByte (t.pc + k)) ∧ s.regs.toList = t.regs.toList := by
  have hwindow : s.trace.window = t.trace.window ↔ ∀ k, k ≤ 2 → s.traceByte (s.pc + k) = t.traceByte (t.pc + k) := by
    show (List.range 3).map (fun k => s.traceByte (s.pc + k)) = (List.range 3).map (fun k => t.traceByte (t.pc + k)) ↔ _
    simp only [List.map_inj_left, List.mem_range, Nat.lt_succ_iff]
  rw [← hwindow]
  exact (TraceView.mk.injEq ..).to_iff

/-- Settles O48: a byte of the window is the memory's at addresses up to 255 and none above, for both states alike. -/
theorem tracerSeesOnlyPcWindowAndRegisters : Obligations.TracerSeesOnlyPcWindowAndRegisters := by
  intro s t
  rw [trace_eq_iff, regs_toList_eq_iff]
  refine and_congr_right fun hpc => ?_
  simp only [← hpc, traceByte_eq_iff]
  exact and_comm

end Sys2Proof.Machine
end

section
/-! PROOFS. Reset and hazards (spec/70_reset_and_hazards.md R170, R172, R177): which images have a launch state, what such a
state satisfies, and that the flag stays set along a run. -/

namespace Sys2Proof.Machine

/-! ### The flag along a run -/

theorem flag_stays_of_stepWith {c : Config.Opcodes} {s t : State} (h : stepWith c s = .next t) (hs : s.flag = true) :
    t.flag = true := by
  obtain ⟨-, -, hstep⟩ := flagIsWrittenOnlyByCmpAndReadOnlyByBranches
  obtain ⟨hstays, -, -⟩ := hstep c s t h
  exact hstays hs

theorem flag_stays_of_run {n : Nat} {s t : State} (h : Host.Core.run Sys2Proof.core n s = .next t) (hs : s.flag = true) :
    t.flag = true :=
  run_induction (P := fun s t => s.flag = true → t.flag = true) (fun _ => id)
    (fun _ _ _ hst ih hs => ih (flag_stays_of_stepWith hst hs)) n s t h hs

/-- Settles O49: no step clears the flag, so every run ends with it set, where JEQ's clause and JNE's for a set flag apply. -/
theorem flagStaysSetForTheRestOfTheRun : Obligations.FlagStaysSetForTheRestOfTheRun := by
  intro n s t hs hrun
  have hflag := flag_stays_of_run hrun hs
  refine ⟨hflag, fun r i hi => ⟨?jeq, ?jne⟩⟩
  case jeq =>
    obtain ⟨u, hu, hset, -⟩ := jeqBranchesWhenTheFlagIsSet.1 t r i hi
    exact ⟨u, hu, hset hflag⟩
  case jne =>
    obtain ⟨u, hu, -, hset, -⟩ := jneBranchesWhenTheFlagIsClear.1 t r i hi
    exact ⟨u, hu, hset hflag⟩

/-! ### Launch -/

/-- Settles O37: a launch state differs from reset in memory alone, and loading keeps memory canonical. -/
theorem invariantHoldsAtLaunch : Obligations.InvariantHoldsAtLaunch := fun _ _ => stateInv_of_launch

theorem launch_refused {img : List Byte} (h : 256 < img.length) : launch img = .refused .imageTooLong :=
  if_neg (Nat.not_le.mpr h)

theorem getElem?_eq_load_memAt {img : List Byte} {a : Nat} (h : img.length ≤ 256) (ha : a < img.length) :
    img[a]? = some ((State.reset.load img).memAt a) := by
  rw [load_memAt h, dif_pos ha, List.getElem?_eq_getElem ha]

/-- Settles O4: the length check decides, and an image of 256 bytes has one for each address. -/
theorem overlongImageHasNoLaunchState : Obligations.OverlongImageHasNoLaunchState :=
  fun _ => ⟨launch_refused, fun h => ⟨_, launch_eq h⟩,
    fun h => ⟨_, launch_eq h.le, fun _ ha => getElem?_eq_load_memAt h.le (by omega)⟩⟩

end Sys2Proof.Machine
end

section
/-! PROOFS. The canonical memory form (log entry 9): a canonical memory lists exactly the bytes that do not read as an unlisted
address does, so its reads determine it. -/

namespace Sys2Proof.Machine

/-- A byte that does not read as an unlisted address does is listed, canonical form or not. -/
theorem mem_of_byteAt_ne_unlisted {m : Memory} {a : Nat} (h : m.byteAt a ≠ Memory.unlisted) : (a, m.byteAt a) ∈ m := by
  induction m with
  | nil => exact absurd rfl h
  | cons c m ih =>
    obtain ⟨b, w⟩ := c
    by_cases hb : b = a
    · simp [Memory.byteAt, hb]
    · simp only [Memory.byteAt, if_neg hb] at h ⊢
      exact List.mem_cons_of_mem _ (ih h)

/-- Addresses that rise strictly list no address twice, so a listed byte is the one read. -/
theorem byteAt_of_mem {m : Memory} {a : Nat} {v : Byte} (hm : m.Pairwise (fun c d => c.1 < d.1)) (h : (a, v) ∈ m) :
    m.byteAt a = v := by
  induction m with
  | nil => cases h
  | cons c m ih =>
    obtain ⟨b, w⟩ := c
    obtain ⟨hlt, hm⟩ := List.pairwise_cons.mp hm
    rcases List.mem_cons.mp h with h | h
    · cases h
      exact if_pos rfl
    · exact (if_neg (hlt _ h).ne).trans (ih hm h)

/-- Which cells a canonical memory lists is a matter of how it reads. -/
theorem mem_iff_byteAt {m : Memory} (hm : m.wf) {a : Nat} {v : Byte} :
    (a, v) ∈ m ↔ m.byteAt a = v ∧ v ≠ Memory.unlisted := by
  obtain ⟨hrising, hcells⟩ := hm
  constructor
  · exact fun h => ⟨byteAt_of_mem hrising h, (hcells _ h).2⟩
  · rintro ⟨rfl, hv⟩
    exact mem_of_byteAt_ne_unlisted hv

/-- Settles O6: the two list the same cells, and the order of strictly rising addresses is forced. -/
theorem canonicalMemoriesThatReadAlikeAreEqual : Obligations.CanonicalMemoriesThatReadAlikeAreEqual := by
  intro m n hm hn hread
  have hcells (c : Host.Cell) : c ∈ m ↔ c ∈ n := by
    rw [mem_iff_byteAt hm, mem_iff_byteAt hn, hread]
  have hirrefl : Std.Irrefl fun c d : Host.Cell => c.1 < d.1 := ⟨fun _ => lt_irrefl _⟩
  have hantisymm : Std.Antisymm fun c d : Host.Cell => c.1 < d.1 := ⟨fun _ _ h h' => absurd h' h.asymm⟩
  exact hm.1.eq_of_mem_iff hn.1 hcells

end Sys2Proof.Machine
end

section
/-! PROOFS. Words of the opcode table (spec/30_encoding.md R57, R60): the default opcodes' words decode, and a word placed at
the pc is what the next step runs (log entry 7). -/

namespace Sys2Proof

/-- Settles O11: each word is the encoding of its instruction, and RET's is followed by a byte that is handed back. -/
theorem defaultOpcodeWordsDecode : Obligations.DefaultOpcodeWordsDecode :=
  ⟨decode_encode (.mul 3 4), decode_encode (.push 2), decode_encode (.pop 5), decode_encode (.call 1),
    decodeOfEncodeGivesTheInstructionBack defaultOpcodes .ret [1] defaultOpcodes_admissible,
    decode_encode (.cmp 6 7), decode_encode (.jmp 2), decode_encode (.jeq 2), decode_encode (.jne 2)⟩

theorem decode_of_decodeTableWord {nbits w : Nat} {i : Instr} (h : decodeTableWord nbits w = some i) :
    ∃ rest, decode (tableBytes nbits w) = .ok (i, rest) := by
  unfold decodeTableWord at h
  split at h
  · next hd => cases h; exact ⟨_, hd⟩
  · cases h

namespace Machine

/-- Bytes placed inside memory stand at the pc in order. -/
theorem placeAtPc_memAt {s : State} {bytes : List Byte} (hl : s.pc + bytes.length ≤ 256) {k : Nat} (hk : k < bytes.length) :
    (s.placeAtPc bytes).memAt (s.pc + k) = bytes[k] := by
  rw [State.memAt, placeAtPc_mem, byteAt_placeBytes bytes s.mem hl, dif_pos (by omega)]
  simp

/-- The step runs what the decoder reads from the bytes placed at the pc, for every admissible choice of opcode values. -/
theorem stepWith_placeAtPc {c : Config.Opcodes} {s : State} {bytes rest : List Byte} {i : Instr} (hc : admissible c)
    (hr : s.status = .running) (hl : s.pc + bytes.length ≤ 256) (hd : decodeWith c bytes = .ok (i, rest)) :
    stepWith c (s.placeAtPc bytes) = exec i (s.placeAtPc bytes) := by
  obtain rfl := encodeOfDecodeGivesTheBytesBack c bytes rest i hd
  refine stepWith_of_encoding hc hr fun k hk => ?_
  have hk' : k < (encodeWith c i ++ rest).length := by rw [List.length_append]; omega
  rw [placeAtPc_pc]
  exact ⟨by omega, (placeAtPc_memAt hl hk').trans (List.getElem_append_left hk)⟩

/-- Settles O13: a table word has three bytes, which are inside memory from a pc of at most 253. -/
theorem placedTableWordIsWhatTheNextStepRuns : Obligations.PlacedTableWordIsWhatTheNextStepRuns := by
  intro s nbits w i hr hpc hw
  obtain ⟨rest, hd⟩ := decode_of_decodeTableWord hw
  have hl : s.pc + (tableBytes nbits w).length ≤ 256 := Nat.add_le_add_right hpc 3
  exact stepWith_placeAtPc defaultOpcodes_admissible hr hl hd

end Machine

end Sys2Proof
end

section
/-! PROOFS. The ALU as a block (spec/42_alu.md R100, R104, R105). -/

namespace Sys2Proof.Machine

/-- The low 8 bits of the exact sum (R104). -/
theorem alu_add (a b : Byte) : alu .add a b = .ok (.result (BitVec.ofNat 8 (a.toNat + b.toNat))) := by
  rw [← trunc8_natCast, Nat.cast_add]
  rfl

/-- The low 8 bits of the exact product (R104). -/
theorem alu_multiply (a b : Byte) : alu .multiply a b = .ok (.result (BitVec.ofNat 8 (a.toNat * b.toNat))) := by
  rw [← trunc8_natCast, Nat.cast_mul]
  rfl

/-- No phase of a step raises UnsupportedAluOp: no instruction presents a kind the ALU refuses (R105, R144). -/
theorem Raises.kind_ne_unsupportedAluOp {c : Config.Opcodes} {s : State} {z : Cause} (h : Raises c s z) :
    z.kind ≠ .unsupportedAluOp := by
  cases h with
  | fetch | decode | operand | register => exact nofun

/-- Settles O29: the ALU answers kind by kind, and a new record is that of a cause the step raised. -/
theorem aluComputesModulo256AndRefusesOtherKinds : Obligations.AluComputesModulo256AndRefusesOtherKinds := by
  refine ⟨fun a b => ⟨_, _, _, alu_add a b, BitVec.toNat_ofNat _ _, alu_multiply a b, BitVec.toNat_ofNat _ _, rfl,
    beq_iff_eq⟩, fun _ _ _ => rfl, fun c s t r hf h hrec => ?record⟩
  case record =>
    obtain ⟨z, hz, rfl⟩ := raises_of_record hf h hrec
    exact hz.kind_ne_unsupportedAluOp

end Sys2Proof.Machine
end
